-- ==== Sys2Proof/Word.lean ====
section
/-! DEFINITION. The 64-bit signed value every tape cell, input value, output value, `IP` and `RB` holds
(spec/00_scope.md R7 `i64`, spec/20_memory.md R31), and the two ends of its range. -/

namespace Sys2Proof

/-- One `i64` (R7): 64 bits read as a signed two's complement integer by `BitVec.toInt`. -/
abbrev Word := BitVec 64

/-- The least `i64`, -2^63 (R7). -/
abbrev minInt64 : Int := -9223372036854775808

/-- The greatest `i64`, 2^63-1 (R7). -/
abbrev maxInt64 : Int := 9223372036854775807

end Sys2Proof
end

