-- ==== Sys2Proof/Config.lean ====
section
/-! DEFINITION. The two OPEN parameters of the engine (spec/00_scope.md R5, spec/92_eei_decisions.md D8, D9).
The model fixes neither: a machine carries its own `Config`, and a claim about every state is a claim about every
value of them. -/

namespace Sys2Proof

/-- The parameters a model takes (R5). -/
structure Config where
  /-- `TAPE_LIMIT`: the largest value `LEN` may take; a write at or above it raises `CapacityFault` (R36). -/
  tapeLimit : Nat
  /-- `INQ_DEPTH`: the most values the input queue holds; `none` is the spec's `unbounded`. -/
  inqDepth : Option Nat
  deriving DecidableEq, Repr

/-- The constraints of R5: `1 <= TAPE_LIMIT <= 2^63-1`, and `INQ_DEPTH` positive where it is bounded. -/
abbrev Config.Valid (c : Config) : Prop :=
  1 ≤ c.tapeLimit ∧ (c.tapeLimit : Int) ≤ maxInt64 ∧ ∀ d ∈ c.inqDepth, 1 ≤ d

/-- The defaults of R5: `TAPE_LIMIT = 2^63-1`, `INQ_DEPTH = unbounded`. -/
def Config.standard : Config := { tapeLimit := 9223372036854775807, inqDepth := none }

end Sys2Proof
end

