-- ==== Sys2Proof/Syntax.lean ====
section
/-! DEFINITION. The instructions as syntax: the decoded instruction of spec/10_state.md R22, "an opcode tag plus a
sequence of addressing-mode tags, one per operand the opcode consumes, ordered first-operand-first". -/

namespace Sys2Proof

/-- The three addressing modes (spec/30_encoding.md R55). -/
inductive Mode where
  /-- digit 0, also "indirect": the operand cell holds an address -/
  | position
  /-- digit 1: the operand cell is the value -/
  | immediate
  /-- digit 2: the operand cell holds an offset added to `RB` -/
  | relative
  deriving DecidableEq, Repr

/-- The role of an operand (spec/30_encoding.md R54). -/
inductive Role where
  | read
  | write
  deriving DecidableEq, Repr

/-- The ten instructions (spec/30_encoding.md R53), one constructor per row of the opcode table, each with the mode of
each operand it consumes, operand 1 first. -/
inductive Instr where
  /-- opcode 01: a, b, dest (R90) -/
  | add (a b dest : Mode)
  /-- opcode 02: a, b, dest (R91) -/
  | multiply (a b dest : Mode)
  /-- opcode 03: dest (R100) -/
  | input (dest : Mode)
  /-- opcode 04: a (R101) -/
  | output (a : Mode)
  /-- opcode 05: a, target (R110) -/
  | jumpIfNz (a target : Mode)
  /-- opcode 06: a, target (R111) -/
  | jumpIfZ (a target : Mode)
  /-- opcode 07: a, b, dest (R120) -/
  | jumpLt (a b dest : Mode)
  /-- opcode 08: a, b, dest (R121) -/
  | jumpEq (a b dest : Mode)
  /-- opcode 09: a (R130) -/
  | adjRelBase (a : Mode)
  /-- opcode 99 (R131) -/
  | exit
  deriving DecidableEq, Repr

/-- The operands' roles in operand order (R54). -/
def Instr.roles : Instr → List Role
  | .add _ _ _ | .multiply _ _ _ | .jumpLt _ _ _ | .jumpEq _ _ _ => [.read, .read, .write]
  | .jumpIfNz _ _ | .jumpIfZ _ _ => [.read, .read]
  | .output _ | .adjRelBase _ => [.read]
  | .input _ => [.write]
  | .exit => []

/-- The mode list of the decoded instruction, first operand first (R22, R70). -/
def Instr.modes : Instr → List Mode
  | .add a b d | .multiply a b d | .jumpLt a b d | .jumpEq a b d => [a, b, d]
  | .jumpIfNz a t | .jumpIfZ a t => [a, t]
  | .output a | .adjRelBase a => [a]
  | .input d => [d]
  | .exit => []

/-- The length in cells, `1 + n` (R50). -/
def Instr.cells (i : Instr) : Nat := 1 + i.roles.length

/-- One line of a listing (spec/30_encoding.md R61): an instruction and the contents of its operand cells. -/
structure Line where
  instr : Instr
  operands : List Word
  deriving DecidableEq, Repr

end Sys2Proof
end

