-- ==== Sys2Proof/WellFormed.lean ====
section
/-! DEFINITION. Which syntax is well formed. A decoded instruction is well formed when it is one of the 99 legal words
of spec/30_encoding.md R62, that is when no write operand has mode 1; the other 37 decode, and raise
`InvalidWriteTarget` when they run (R59). A line of a listing also has one operand cell per operand (R50, R54). -/

namespace Sys2Proof

/-- The mode of the write operand, which is always the last operand (R54); `none` where the opcode has none. -/
def Instr.writeMode : Instr → Option Mode
  | .add _ _ d | .multiply _ _ d | .jumpLt _ _ d | .jumpEq _ _ d | .input d => some d
  | .output _ | .jumpIfNz _ _ | .jumpIfZ _ _ | .adjRelBase _ | .exit => none

/-- Legal in the sense of R62: the write operand's digit is not 1. -/
def Instr.wellFormed (i : Instr) : Bool := i.writeMode != some .immediate

/-- A line of a listing: a legal instruction with exactly one cell per operand (R50, R61). -/
def Line.wellFormed (l : Line) : Bool :=
  l.instr.wellFormed && l.operands.length == l.instr.roles.length

end Sys2Proof
end

