-- ==== Sys2Proof/Decode.lean ====
section
/-! DEFINITION. The decoder (spec/40_decode_and_operands.md R70), total on every 64-bit cell, and the encoder, both
written from the decimal fields of spec/30_encoding.md R51 and the opcode map of R53. -/

namespace Sys2Proof

/-- Why a cell is no instruction word. Each is a cause of the one `DecodeFault` (spec/60_exceptions.md R171). -/
inductive DecodeError where
  /-- `w < 0` (R52) -/
  | negativeWord
  /-- `w mod 100` is none of 1 .. 9, 99 (R59) -/
  | unknownOpcode
  /-- a consumed mode digit is 3 .. 9 (R56) -/
  | illegalMode
  /-- a digit that no operand consumes is not 0 (R57) -/
  | surplusDigit
  deriving DecidableEq, Repr

/-- The mode a digit stands for (R55); the digits 3 to 9 stand for none (R56). -/
def Mode.ofDigit : Nat → Option Mode
  | 0 => some .position
  | 1 => some .immediate
  | 2 => some .relative
  | _ => none

/-- The digit of a mode (R55). -/
def Mode.digit : Mode → Nat
  | .position => 0
  | .immediate => 1
  | .relative => 2

/-- One turn of the loop of R70: the mode of the lowest remaining digit, and the digits that remain. -/
def takeMode (rest : Nat) : Except DecodeError (Mode × Nat) :=
  match Mode.ofDigit (rest % 10) with
  | some m => .ok (m, rest / 10)
  | none => .error .illegalMode

/-- The last line of R70: every digit that no operand consumed must be 0 (R57). -/
def noSurplus (rest : Nat) (i : Instr) : Except DecodeError Instr :=
  if rest = 0 then .ok i else .error .surplusDigit

/-- An opcode with one operand. -/
def decode1 (f : Mode → Instr) (rest : Nat) : Except DecodeError Instr := do
  let (m1, rest) ← takeMode rest
  noSurplus rest (f m1)

/-- An opcode with two operands. -/
def decode2 (f : Mode → Mode → Instr) (rest : Nat) : Except DecodeError Instr := do
  let (m1, rest) ← takeMode rest
  let (m2, rest) ← takeMode rest
  noSurplus rest (f m1 m2)

/-- An opcode with three operands. -/
def decode3 (f : Mode → Mode → Mode → Instr) (rest : Nat) : Except DecodeError Instr := do
  let (m1, rest) ← takeMode rest
  let (m2, rest) ← takeMode rest
  let (m3, rest) ← takeMode rest
  noSurplus rest (f m1 m2 m3)

/-- `Decode()` of R70 on the fetched word: the sign (R52), the opcode (R53), the consumed digits (R56), the surplus
(R57). -/
def decodeWord (w : Word) : Except DecodeError Instr :=
  if w.toInt < 0 then .error .negativeWord
  else
    let rest := w.toNat / 100
    match w.toNat % 100 with
    | 1 => decode3 .add rest
    | 2 => decode3 .multiply rest
    | 3 => decode1 .input rest
    | 4 => decode1 .output rest
    | 5 => decode2 .jumpIfNz rest
    | 6 => decode2 .jumpIfZ rest
    | 7 => decode3 .jumpLt rest
    | 8 => decode3 .jumpEq rest
    | 9 => decode1 .adjRelBase rest
    | 99 => noSurplus rest .exit
    | _ => .error .unknownOpcode

/-- The operand count the opcode alone fixes (R54, R60); `none` for a number that is no opcode. -/
def operandCount : Nat → Option Nat
  | 1 | 2 | 7 | 8 => some 3
  | 5 | 6 => some 2
  | 3 | 4 | 9 => some 1
  | 99 => some 0
  | _ => none

/-- The opcode number (R53). -/
def Instr.opcode : Instr → Nat
  | .add _ _ _ => 1
  | .multiply _ _ _ => 2
  | .input _ => 3
  | .output _ => 4
  | .jumpIfNz _ _ => 5
  | .jumpIfZ _ _ => 6
  | .jumpLt _ _ _ => 7
  | .jumpEq _ _ _ => 8
  | .adjRelBase _ => 9
  | .exit => 99

/-- The number the mode digits form, operand 1 lowest (R51: `M3 M2 M1` before the opcode digits). -/
def modeDigits : List Mode → Nat
  | [] => 0
  | m :: ms => m.digit + 10 * modeDigits ms

/-- The instruction word `10000*M3 + 1000*M2 + 100*M1 + OP` (R51, R61). -/
def encode (i : Instr) : Word := BitVec.ofNat 64 (i.opcode + 100 * modeDigits i.modes)

/-- The cells of one line of a listing: the instruction word, then one cell per operand (R50, R61). -/
def assemble (l : Line) : List Word := encode l.instr :: l.operands

/-- The instruction the decoder reads from the instruction whose bits are `w`, bit 0 the least significant bit of the
first cell, every bit above `nbits` zero. Only the first cell takes part in decoding (R60). -/
def decodeTableWord (nbits w : Nat) : Option Instr :=
  match decodeWord (BitVec.ofNat 64 (w % 2 ^ nbits)) with
  | .ok i => some i
  | .error _ => none

end Sys2Proof
end

