-- ==== Sys2Proof/Machine/State.lean ====
section
/-! DEFINITION. The architectural state of one engine: the eight items of spec/10_state.md R10 and, beside them, the
fixed parameters (notes/assumptions/1.md); the state after reset (R24); the reasons for which a step has no next state. -/

namespace Sys2Proof.Machine

/-- The contents of the tape: the cells that do not hold 0, as (cell index, value) pairs, indexes strictly rising.
An index that is not listed reads as 0 (spec/20_memory.md R45). The unit is one 64-bit cell: the engine has no bytes
(R31, R37; notes/assumptions/2.md). -/
abbrev Memory := List (Nat × Word)

/-- The fault kinds of spec/60_exceptions.md R170, in the order of their codes 1 .. 7. -/
inductive FaultKind where
  /-- code 1, raised by `Decode()` (R171) -/
  | decodeFault
  /-- code 2, raised by `ResolveWriteAddr` (R172) -/
  | invalidWriteTarget
  /-- code 3, raised by Input (R173) -/
  | inputExhausted
  /-- code 4, raised by `Fetch()`, `MemRead` and `ResolveWriteAddr` (R174) -/
  | addressFault
  /-- code 5, reserved for the host-side loader, never raised by the engine (R177) -/
  | startupParseFault
  /-- code 6, raised by Add, Multiply and AdjRelBase (R175) -/
  | arithmeticOverflow
  /-- code 7, raised by `ResolveWriteAddr` (R176) -/
  | capacityFault
  deriving DecidableEq, Repr

/-- The values of the register `STATE` (spec/10_state.md R15), in the order of their codes 0 .. 4. -/
inductive RunState where
  | running
  | suspendedOnOutput
  | halted
  | faulted
  /-- code 4, reserved; never entered by this hardware (R150) -/
  | awaitingMoreInput
  deriving DecidableEq, Repr

/-- The state of one machine instance (R10). -/
structure State where
  /-- the parameters of R5, fixed for the machine; not architectural state -/
  cfg : Config
  /-- `TAPE` (R19) -/
  tape : Memory
  /-- `LEN` (R18): cells `0 .. LEN-1` are present -/
  len : Nat
  /-- `IP` (R12) -/
  ip : Word
  /-- `RB` (R14) -/
  rb : Word
  /-- `INQ` (R20), front first -/
  inq : List Word
  /-- `STATE` (R15) -/
  status : RunState
  /-- `FAULT` (R16); `none` is the code 0, `None` -/
  fault : Option FaultKind
  /-- `OUT` (R17) -/
  out : Word
  deriving DecidableEq, Repr

/-- Why a step is stuck with no next state. The seven fault kinds of the spec are not here: taking one is a next state
whose `STATE` is Faulted (spec/60_exceptions.md R180). -/
inductive Fault where
  /-- Raised by `step` where `STATE` holds the reserved code 4, AwaitingMoreInput: no transition of
  spec/46_execution_loop.md R141 leaves it and none enters it (R150). Safe: the model stops where the spec gives no
  behaviour, and no run reaches it (notes/assumptions/6.md). -/
  | reservedState
  deriving DecidableEq, Repr

/-- Why a step is refused. -/
inductive Refusal where
  /-- An instruction without a meaning; raised by no arm of `exec` in this model. Safe. -/
  | notModelled (mnemonic : String)
  /-- Raised by `step` where `STATE` is Halted or Faulted: a RUN there executes no instruction, changes no state and
  answers `Rejected` (spec/46_execution_loop.md R145). Safe: it is the spec's own refusal (notes/assumptions/5.md). -/
  | runRejected
  deriving DecidableEq, Repr

/-- The state after `RESET` of the empty image with the standard parameters: every item as R24 gives it
(notes/assumptions/3.md). -/
def State.reset : State where
  cfg := Config.standard
  tape := []
  len := 0
  ip := 0#64
  rb := 0#64
  inq := []
  status := .running
  fault := none
  out := 0#64

end Sys2Proof.Machine
end

