-- ==== Sys2Proof/Machine/Ops.lean ====
section
/-! DEFINITION. The named operations over the tape, the registers and the queue: cell reads and writes
(spec/20_memory.md R32 to R34), the address checks, the register writes of a commit, and taking a fault
(spec/60_exceptions.md R180). -/

namespace Sys2Proof.Machine

/-- The content of cell `x`; 0 where nothing is listed (R45). -/
def Memory.read : Memory → Nat → Word
  | [], _ => 0#64
  | (a, w) :: m, x => if x = a then w else Memory.read m x

/-- Store `v` in cell `x`, keeping the canonical form: storing 0 removes the entry. -/
def Memory.write : Memory → Nat → Word → Memory
  | [], x, v => if v = 0#64 then [] else [(x, v)]
  | (a, w) :: m, x, v =>
    if x < a then (if v = 0#64 then (a, w) :: m else (x, v) :: (a, w) :: m)
    else if x = a then (if v = 0#64 then m else (x, v) :: m)
    else (a, w) :: Memory.write m x v

/-- The tape that holds the values of a list from cell `i` on. -/
def Memory.ofCells (i : Nat) : List Word → Memory
  | [] => []
  | v :: vs => if v = 0#64 then Memory.ofCells (i + 1) vs else (i, v) :: Memory.ofCells (i + 1) vs

/-- The canonical form: indexes strictly rising, and no entry that holds what an unlisted cell reads as. -/
abbrev Memory.wf (m : Memory) : Prop :=
  m.Pairwise (fun p q => p.1 < q.1) ∧ ∀ p ∈ m, p.2 ≠ 0#64

/-- Every listed cell lies below `n`. -/
abbrev Memory.below (m : Memory) (n : Nat) : Prop := ∀ p ∈ m, p.1 < n

/-- What a data read of cell `x` observes: the cell where it is present, 0 at and beyond `LEN` (R33). -/
def State.cell (s : State) (x : Nat) : Word :=
  if s.len ≤ x then 0#64 else s.tape.read x

/-- `Fetch()` of cell `A + k` of the instruction whose word is at `A = IP`: a fetch outside `0 .. LEN-1` is an
`AddressFault` and never the implicit 0 (R32; operand `k` lies at `A + k`, spec/40_decode_and_operands.md R73). -/
def fetchCell (s : State) (k : Nat) : Except FaultKind Word :=
  if s.ip.toInt + k < 0 ∨ (s.len : Int) ≤ s.ip.toInt + k then .error .addressFault
  else .ok (s.tape.read (s.ip.toInt + k).toNat)

/-- `MemRead(addr, 1)` (R33), `addr` an exact integer. -/
def memRead (s : State) (addr : Int) : Except FaultKind Word :=
  if addr < 0 ∨ maxInt64 < addr then .error .addressFault else .ok (s.cell addr.toNat)

/-- The checks of `MemWrite(addr, 1, v)` (R34), made in the check phase (spec/40_decode_and_operands.md R74). -/
def writeAddress (s : State) (addr : Int) : Except FaultKind Nat :=
  if addr < 0 ∨ maxInt64 < addr then .error .addressFault
  else if s.cfg.tapeLimit ≤ addr.toNat then .error .capacityFault
  else .ok addr.toNat

/-- The two assignments of `MemWrite` (R34), made in the commit phase: grow first when `addr >= LEN`, then store. The
cells between the old `LEN` and `addr` are unlisted and so read 0 (R45). -/
def State.memWrite (s : State) (addr : Nat) (v : Word) : State :=
  { s with tape := s.tape.write addr v, len := max s.len (addr + 1) }

/-- `IP <- v` -/
def State.setIp (s : State) (v : Word) : State := { s with ip := v }

/-- `IP` after an instruction of `n` cells that does not jump: `A + n` (spec/10_state.md R13). -/
def State.advance (s : State) (n : Nat) : State := s.setIp (BitVec.ofInt 64 (s.ip.toInt + n))

/-- `RB <- v` -/
def State.setRb (s : State) (v : Word) : State := { s with rb := v }

/-- `INQ <- q` -/
def State.setInq (s : State) (q : List Word) : State := { s with inq := q }

/-- `STATE <- r` -/
def State.setStatus (s : State) (r : RunState) : State := { s with status := r }

/-- `OUT <- v` -/
def State.setOut (s : State) (v : Word) : State := { s with out := v }

/-- Fault entry (R180): `STATE <- Faulted`, `FAULT <- kind`, and `IP` back at the faulting instruction's word. The
working `IP` of the check phase is never stored, so `IP` still is that address. There is no handler, and no return
from a fault beside it: only `RESET` leaves `Faulted` (R181; `resetImage` below). -/
def State.takeFault (s : State) (k : FaultKind) : State :=
  { s with status := .faulted, fault := some k }

/-- The end of a step (spec/40_decode_and_operands.md R74): the commit where every check passed, the fault entry on a
raise in the check phase. -/
def settle (s : State) : Except FaultKind State → Host.Outcome State Fault Refusal
  | .ok t => .next t
  | .error k => .next (s.takeFault k)

/-- `RESET(image)` for an image that fits (spec/10_state.md R24, spec/46_execution_loop.md R147). -/
def resetImage (cfg : Config) (image : List Word) : State where
  cfg := cfg
  tape := Memory.ofCells 0 image
  len := image.length
  ip := 0#64
  rb := 0#64
  inq := []
  status := .running
  fault := none
  out := 0#64

end Sys2Proof.Machine
end

