-- ==== Sys2Proof/Machine/Flags.lean ====
section
/-! DEFINITION. The conditions an instruction computes. The engine has no status flags (spec/10_state.md R21); what
stands in their place is the range check of a result (spec/41_arithmetic.md R92) and the integer 1 or 0 a comparison
stores (spec/44_compare.md R120, R121). -/

namespace Sys2Proof.Machine

/-- `Fits64(z)` (R92). -/
abbrev Fits64 (z : Int) : Prop := minInt64 ≤ z ∧ z ≤ maxInt64

/-- The exact result as an `i64` where it fits; `ArithmeticOverflow` where it does not, never a wrapped value (R92). -/
def narrow (z : Int) : Except FaultKind Word :=
  if Fits64 z then .ok (BitVec.ofInt 64 z) else .error .arithmeticOverflow

/-- The stored truth value: exactly 1 or 0 (R120). -/
def truthWord (p : Bool) : Word := if p then 1#64 else 0#64

/-- `a < b` on the signed values (R120). -/
def signedLess (a b : Word) : Bool := decide (a.toInt < b.toInt)

/-- `a = b` on the full 64-bit values (R121). -/
def sameValue (a b : Word) : Bool := decide (a.toInt = b.toInt)

end Sys2Proof.Machine
end

