-- ==== Sys2Proof/Machine/Operands.lean ====
section
/-! DEFINITION. The operand resolver (spec/40_decode_and_operands.md R71, R72): every mode in both roles. -/

namespace Sys2Proof.Machine

/-- `ResolveRead(mode)` of operand `k` (R71). -/
def resolveRead (s : State) (k : Nat) (m : Mode) : Except FaultKind Word := do
  let c ← fetchCell s k
  match m with
  | .position => memRead s c.toInt
  | .immediate => .ok c
  | .relative => memRead s (c.toInt + s.rb.toInt)

/-- `ResolveWriteAddr(mode)` of operand `k` (R72): the operand cell is fetched before the mode is examined. -/
def resolveWriteAddr (s : State) (k : Nat) (m : Mode) : Except FaultKind Nat := do
  let c ← fetchCell s k
  match m with
  | .position => writeAddress s c.toInt
  | .immediate => .error .invalidWriteTarget
  | .relative => writeAddress s (c.toInt + s.rb.toInt)

end Sys2Proof.Machine
end

