-- ==== Sys2Proof/Machine/Arithmetic.lean ====
section
/-! DEFINITION. Add and Multiply (spec/41_arithmetic.md R90 to R93). -/

namespace Sys2Proof.Machine

/-- The check and commit phases Add and Multiply share: both reads, the exact result and its range, then the write
operand (the order of spec/60_exceptions.md R179). -/
def arithmetic (f : Int → Int → Int) (m1 m2 m3 : Mode) (s : State) : Except FaultKind State := do
  let a ← resolveRead s 1 m1
  let b ← resolveRead s 2 m2
  let r ← narrow (f a.toInt b.toInt)
  let addr ← resolveWriteAddr s 3 m3
  .ok ((s.memWrite addr r).advance 4)

/-- Add, opcode 01 (R90): `dest := a + b`. -/
def execAdd (m1 m2 m3 : Mode) (s : State) : Host.Outcome State Fault Refusal :=
  settle s (arithmetic (fun a b => a + b) m1 m2 m3 s)

/-- Multiply, opcode 02 (R91): `dest := a * b`. -/
def execMultiply (m1 m2 m3 : Mode) (s : State) : Host.Outcome State Fault Refusal :=
  settle s (arithmetic (fun a b => a * b) m1 m2 m3 s)

end Sys2Proof.Machine
end

