-- ==== Sys2Proof/Machine/BaseExit.lean ====
section
/-! DEFINITION. AdjRelBase and Exit (spec/45_base_and_exit.md R130, R131). -/

namespace Sys2Proof.Machine

/-- The phases of AdjRelBase: the operand is read with the old `RB`, the exact sum must fit (R130). -/
def adjRelBasePhases (m1 : Mode) (s : State) : Except FaultKind State := do
  let a ← resolveRead s 1 m1
  let r ← narrow (s.rb.toInt + a.toInt)
  .ok ((s.setRb r).advance 2)

/-- AdjRelBase, opcode 09 (R130): `RB := RB + a`. -/
def execAdjRelBase (m1 : Mode) (s : State) : Host.Outcome State Fault Refusal :=
  settle s (adjRelBasePhases m1 s)

/-- Exit, opcode 99 (R131): halt, `IP` behind the word. -/
def execExit (s : State) : Host.Outcome State Fault Refusal :=
  settle s (.ok ((s.setStatus .halted).advance 1))

end Sys2Proof.Machine
end

