-- ==== Sys2Proof/Machine/Compare.lean ====
section
/-! DEFINITION. JumpLt and JumpEq, the two comparisons (spec/44_compare.md R120 to R122). -/

namespace Sys2Proof.Machine

/-- The phases of a comparison: both reads, then the write operand; the stored value is 1 or 0. -/
def compareInto (p : Word → Word → Bool) (m1 m2 m3 : Mode) (s : State) : Except FaultKind State := do
  let a ← resolveRead s 1 m1
  let b ← resolveRead s 2 m2
  let addr ← resolveWriteAddr s 3 m3
  .ok ((s.memWrite addr (truthWord (p a b))).advance 4)

/-- JumpLt, opcode 07 (R120): `dest := 1 if a < b else 0`. -/
def execJumpLt (m1 m2 m3 : Mode) (s : State) : Host.Outcome State Fault Refusal :=
  settle s (compareInto signedLess m1 m2 m3 s)

/-- JumpEq, opcode 08 (R121): `dest := 1 if a = b else 0`. -/
def execJumpEq (m1 m2 m3 : Mode) (s : State) : Host.Outcome State Fault Refusal :=
  settle s (compareInto sameValue m1 m2 m3 s)

end Sys2Proof.Machine
end

