-- ==== Sys2Proof/Machine/InputOutput.lean ====
section
/-! DEFINITION. Input and Output (spec/42_io.md R100, R101). -/

namespace Sys2Proof.Machine

/-- The front of the queue and the rest; `InputExhausted` where it is empty (R100). -/
def popInput (s : State) : Except FaultKind (Word × List Word) :=
  match s.inq with
  | [] => .error .inputExhausted
  | v :: rest => .ok (v, rest)

/-- The phases of Input: the queue is examined before the write operand (R100). -/
def inputPhases (m1 : Mode) (s : State) : Except FaultKind State := do
  let (v, rest) ← popInput s
  let addr ← resolveWriteAddr s 1 m1
  .ok (((s.setInq rest).memWrite addr v).advance 2)

/-- Input, opcode 03 (R100): pop the front of `INQ` into `dest`. -/
def execInput (m1 : Mode) (s : State) : Host.Outcome State Fault Refusal :=
  settle s (inputPhases m1 s)

/-- The phases of Output (R101). -/
def outputPhases (m1 : Mode) (s : State) : Except FaultKind State := do
  let a ← resolveRead s 1 m1
  .ok (((s.setOut a).setStatus .suspendedOnOutput).advance 2)

/-- Output, opcode 04 (R101): yield `a` in `OUT` and suspend, `IP` at the next instruction. -/
def execOutput (m1 : Mode) (s : State) : Host.Outcome State Fault Refusal :=
  settle s (outputPhases m1 s)

end Sys2Proof.Machine
end

