-- ==== Sys2Proof/Machine/Jumps.lean ====
section
/-! DEFINITION. JumpIfNz and JumpIfZ (spec/43_jumps.md R110 to R112). -/

namespace Sys2Proof.Machine

/-- The phases of a conditional jump: both operands are resolved whether or not it is taken
(spec/40_decode_and_operands.md R73); a taken jump loads the target unchanged (R112). -/
def jumpWhen (taken : Word → Bool) (m1 m2 : Mode) (s : State) : Except FaultKind State := do
  let a ← resolveRead s 1 m1
  let target ← resolveRead s 2 m2
  .ok (if taken a then s.setIp target else s.advance 3)

/-- JumpIfNz, opcode 05 (R110): `IP <- target` when `a` is not 0. -/
def execJumpIfNz (m1 m2 : Mode) (s : State) : Host.Outcome State Fault Refusal :=
  settle s (jumpWhen (fun a => !sameValue a 0#64) m1 m2 s)

/-- JumpIfZ, opcode 06 (R111): `IP <- target` when `a` is 0. -/
def execJumpIfZ (m1 m2 : Mode) (s : State) : Host.Outcome State Fault Refusal :=
  settle s (jumpWhen (fun a => sameValue a 0#64) m1 m2 s)

end Sys2Proof.Machine
end

