-- ==== Sys2Proof/Machine/Dispatch.lean ====
section
/-! DEFINITION. One arm per instruction: the execution of a decoded instruction whose word is at `IP`
(spec/40_decode_and_operands.md R74). -/

namespace Sys2Proof.Machine

def exec (i : Instr) (s : State) : Host.Outcome State Fault Refusal :=
  match i with
  | .add m1 m2 m3 => Sys2Proof.Machine.execAdd m1 m2 m3 s
  | .multiply m1 m2 m3 => Sys2Proof.Machine.execMultiply m1 m2 m3 s
  | .input m1 => Sys2Proof.Machine.execInput m1 s
  | .output m1 => Sys2Proof.Machine.execOutput m1 s
  | .jumpIfNz m1 m2 => Sys2Proof.Machine.execJumpIfNz m1 m2 s
  | .jumpIfZ m1 m2 => Sys2Proof.Machine.execJumpIfZ m1 m2 s
  | .jumpLt m1 m2 m3 => Sys2Proof.Machine.execJumpLt m1 m2 m3 s
  | .jumpEq m1 m2 m3 => Sys2Proof.Machine.execJumpEq m1 m2 m3 s
  | .adjRelBase m1 => Sys2Proof.Machine.execAdjRelBase m1 s
  | .exit => Sys2Proof.Machine.execExit s

end Sys2Proof.Machine
end

