-- ==== Sys2Proof/Machine/Cycle.lean ====
section
/-! DEFINITION. One step of the execution loop: fetch, decode, run (spec/40_decode_and_operands.md R70, R74;
spec/46_execution_loop.md R142, R143), the classification of its result, and the placing of one instruction where the
next step fetches. -/

namespace Sys2Proof.Machine

/-- `Decode()` (R70): the word at `IP` is fetched, then decoded; every reason to reject it is a `DecodeFault` (R171). -/
def fetchInstr (s : State) : Except FaultKind Instr := do
  let w ← fetchCell s 0
  match decodeWord w with
  | .ok i => .ok i
  | .error _ => .error .decodeFault

/-- `Step()` (R142, R74): one instruction, or the fault of its fetch or of its decoding. -/
def runOne (s : State) : Host.Outcome State Fault Refusal :=
  match fetchInstr s with
  | .ok i => exec i s
  | .error k => settle s (.error k)

/-- One turn of the loop of `RUN` (R143). In Running it is `Step()`. In SuspendedOnOutput it is the first turn of the
host's next `RUN`, which sets `STATE <- Running` and resumes at `IP` (R144). In Halted and Faulted that `RUN` is
rejected (R145). The reserved code 4 has no transition (R141, R150). -/
def cycle (s : State) : Host.Outcome State Fault Refusal :=
  match s.status with
  | .running | .suspendedOnOutput => runOne (s.setStatus .running)
  | .halted | .faulted => .refused .runRejected
  | .awaitingMoreInput => .fault .reservedState

/-- The result of `Step()` (R142). -/
inductive StepResult where
  /-- `Continue`: committed, neither Output nor Exit -/
  | continued
  /-- `Yield(v)`: Output committed -/
  | yielded (v : Word)
  /-- `Halt`: Exit committed -/
  | halted
  /-- `Fault(kind)`: a raise in the check phase -/
  | faulted (k : FaultKind)
  deriving DecidableEq, Repr

/-- The classification of a step by the state it leaves (R142, R143): the registers say which result it was.
A faulted machine's `FAULT` is never `None` (R16), so the last line's `none` case stands for no step. -/
def stepResult (t : State) : StepResult :=
  match t.status, t.fault with
  | .suspendedOnOutput, _ => .yielded t.out
  | .halted, _ => .halted
  | .faulted, some k => .faulted k
  | .faulted, none | .running, _ | .awaitingMoreInput, _ => .continued

/-- Cell `j` of an instruction whose bits are `w`, bit 0 the least significant bit of its first cell. -/
def wordCell (w j : Nat) : Word := BitVec.ofNat 64 (w / 2 ^ (64 * j))

/-- Where an instruction can be placed for the next fetch: at `IP` where the longest instruction fits from there below
`TAPE_LIMIT`, at cell 0 otherwise (notes/assumptions/7.md). -/
def loadAddress (s : State) : Nat :=
  if 0 ≤ s.ip.toInt ∧ s.ip.toInt + 4 ≤ s.cfg.tapeLimit then s.ip.toInt.toNat else 0

/-- `s` with the four cells of `w` (the longest instruction, R50) stored where the next step fetches, the cells present,
and the machine able to step: the host's load of one instruction (notes/assumptions/7.md). -/
def loadInstruction (s : State) (nbits w : Nat) : State :=
  let a := loadAddress s
  let bits := w % 2 ^ nbits
  let t := (((s.memWrite a (wordCell bits 0)).memWrite (a + 1) (wordCell bits 1)).memWrite (a + 2)
    (wordCell bits 2)).memWrite (a + 3) (wordCell bits 3)
  match s.status with
  | .running | .suspendedOnOutput => t.setIp (BitVec.ofNat 64 a)
  | .halted | .faulted | .awaitingMoreInput =>
    { t.setIp (BitVec.ofNat 64 a) with status := .running, fault := none }

end Sys2Proof.Machine
end

