-- ==== Sys2Proof/Machine/Step.lean ====
section
/-! DEFINITION. The step of the machine, and the placing of an instruction for the next step. -/

namespace Sys2Proof.Machine

/-- One step: one turn of the loop of `RUN` (spec/46_execution_loop.md R142, R143; notes/assumptions/4.md). -/
def step (s : State) : Host.Outcome State Fault Refusal := Sys2Proof.Machine.cycle s

/-- `s` with the instruction whose bits are `w` (those above `nbits` zero) placed so that the very next step runs it
(notes/assumptions/7.md). -/
def State.withFetchWord (s : State) (nbits w : Nat) : State := Sys2Proof.Machine.loadInstruction s nbits w

end Sys2Proof.Machine
end

