-- ==== Sys2Proof/Machine/Transactions.lean ====
section
/-! DEFINITION. What the host can do to the machine: RUN, PUSH_INPUT, PEEK, status reads and RESET
(spec/46_execution_loop.md R143 to R152), over an engine that may not have been created yet
(spec/70_reset_and_hazards.md R200). -/

namespace Sys2Proof.Machine

/-- The outcome of a `RUN` (R152). -/
inductive RunOutcome where
  | output (v : Word)
  | halted
  | fault (k : FaultKind)
  | rejected
  deriving DecidableEq, Repr

/-- A `RUN` watched for a bounded number of steps (R149: it need not return). -/
inductive RunProgress where
  /-- it returned, leaving this state -/
  | returned (o : RunOutcome) (s : State)
  /-- it has not returned yet -/
  | executing (s : State)
  /-- it is stuck: only in the reserved `STATE` code 4 (notes/assumptions/6.md) -/
  | stuck (s : State)
  deriving DecidableEq, Repr

/-- `RUN` (R143) under fuel: at most `fuel` steps. -/
def runFor : Nat → State → RunProgress
  | 0, s => .executing s
  | fuel + 1, s =>
    match step s with
    | .refused _ => .returned .rejected s
    | .fault _ => .stuck s
    | .next t =>
      match stepResult t with
      | .continued => runFor fuel t
      | .yielded v => .returned (.output v) t
      | .halted => .returned .halted t
      | .faulted k => .returned (.fault k) t

/-- The `RUN` from `s` returns `o` and leaves `t`. -/
def RunReturns (s : State) (o : RunOutcome) (t : State) : Prop := ∃ fuel, runFor fuel s = .returned o t

/-- Whether the queue can take one more value (R146). -/
def inqHasRoom (s : State) : Bool :=
  match s.cfg.inqDepth with
  | none => true
  | some d => decide (s.inq.length < d)

/-- `PUSH_INPUT(v)` (R146): append at the back, or change nothing where the queue is full. -/
def pushInput (v : Word) (s : State) : State :=
  if inqHasRoom s then s.setInq (s.inq ++ [v]) else s

/-- The code of `STATE` (spec/10_state.md R15). -/
def RunState.code : RunState → Nat
  | .running => 0
  | .suspendedOnOutput => 1
  | .halted => 2
  | .faulted => 3
  | .awaitingMoreInput => 4

/-- The code of a fault kind (spec/10_state.md R16). -/
def FaultKind.code : FaultKind → Nat
  | .decodeFault => 1
  | .invalidWriteTarget => 2
  | .inputExhausted => 3
  | .addressFault => 4
  | .startupParseFault => 5
  | .arithmeticOverflow => 6
  | .capacityFault => 7

/-- The code the register `FAULT` holds: 0 where no fault has occurred (R16). -/
def State.faultCode (s : State) : Nat :=
  match s.fault with
  | none => 0
  | some k => k.code

/-- What a status read can ask for (R148). -/
inductive StatusItem where
  | len | ip | rb | inqLength | state | fault | out
  deriving DecidableEq, Repr

/-- A status read (R148), each item as an integer. -/
def readStatus (s : State) : StatusItem → Int
  | .len => s.len
  | .ip => s.ip.toInt
  | .rb => s.rb.toInt
  | .inqLength => s.inq.length
  | .state => s.status.code
  | .fault => s.faultCode
  | .out => s.out.toInt

/-- The transactions of the host (R151). -/
inductive Transaction where
  | reset (image : List Word)
  | pushInput (v : Word)
  | run
  /-- `PEEK(a)`, `0 <= a <= 2^63-1` (R148) -/
  | peek (a : Fin 9223372036854775808)
  | readStatus (item : StatusItem)
  deriving DecidableEq, Repr

/-- What a transaction answers. -/
inductive Reply where
  /-- `RESET` created a machine -/
  | created
  /-- refused: `RESET` of an image longer than `TAPE_LIMIT` (R147), or anything but `RESET` before the first one
  (R200) -/
  | refused
  /-- `PUSH_INPUT` appended (R146) -/
  | accepted
  /-- `PUSH_INPUT` found the queue full (R146) -/
  | full
  /-- `RUN` returned -/
  | outcome (o : RunOutcome)
  /-- the cell a `PEEK` read -/
  | cell (v : Word)
  /-- the value of a status read -/
  | status (z : Int)
  deriving DecidableEq, Repr

/-- The engine as the host finds it. -/
inductive Engine where
  /-- before the first `RESET`: every item of state is unspecified (R200), so there is none to read -/
  | powerUp (cfg : Config)
  /-- a created machine -/
  | live (s : State)
  deriving DecidableEq, Repr

/-- The parameters of the engine, fixed from power-up on (R5). -/
def Engine.cfg : Engine → Config
  | .powerUp cfg => cfg
  | .live s => s.cfg

/-- `RESET(image)` (R147): accepted in every state; an image that does not fit is refused and creates nothing
(notes/assumptions/9.md). -/
def resetEngine (image : List Word) (e : Engine) : Reply × Engine :=
  if image.length ≤ e.cfg.tapeLimit then (.created, .live (resetImage e.cfg image)) else (.refused, e)

/-- A `RUN` seen from the host: its outcome, or `none` where it has not returned within `fuel` steps. While it has not
returned the host has no other move (R149, R204; notes/assumptions/14.md). -/
def runEngine (fuel : Nat) (s : State) : Option (Reply × Engine) :=
  match runFor fuel s with
  | .returned o t => some (.outcome o, .live t)
  | .executing _ | .stuck _ => none

/-- One transaction, a `RUN` watched for at most `fuel` steps; `none` where that `RUN` has not returned. -/
def transact (fuel : Nat) (t : Transaction) (e : Engine) : Option (Reply × Engine) :=
  match t, e with
  | .reset image, e => some (resetEngine image e)
  | .pushInput _, .powerUp _ | .run, .powerUp _ | .peek _, .powerUp _ | .readStatus _, .powerUp _ => some (.refused, e)
  | .pushInput v, .live s => some (if inqHasRoom s then .accepted else .full, .live (pushInput v s))
  | .run, .live s => runEngine fuel s
  | .peek a, .live s => some (.cell (s.cell a), .live s)
  | .readStatus item, .live s => some (.status (readStatus s item), .live s)

/-- The run of a program (R154): `RUN`s until one returns `Halted` or a fault, with `PUSH_INPUT`s between them. The
observable result is the list of output values in order, the final outcome and the final state. -/
inductive ProgramRun : State → List Word → RunOutcome → State → Prop where
  /-- the `RUN` that returns `Halted` ends it normally -/
  | halt {s t} : RunReturns s .halted t → ProgramRun s [] .halted t
  /-- the `RUN` that returns a fault ends it abnormally -/
  | fault {s t k} : RunReturns s (.fault k) t → ProgramRun s [] (.fault k) t
  /-- an output, and on -/
  | output {s t u v vs o} : RunReturns s (.output v) t → ProgramRun t vs o u → ProgramRun s (v :: vs) o u
  /-- the host appends an input value between two `RUN`s -/
  | push {s u v vs o} : ProgramRun (pushInput v s) vs o u → ProgramRun s vs o u

end Sys2Proof.Machine
end

