-- ==== Sys2Proof/Safety.lean ====
section
/-! DEFINITION. The terms the claims are stated in: the invariant of the machine, the effect of a store as the program
and the host see it, and what a safe run is. -/

namespace Sys2Proof.Machine

/-- The invariant the spec gives the state: the parameters within R5; `LEN <= TAPE_LIMIT` (R18); the tape in canonical
form with nothing listed at or beyond `LEN` (R45); at most `INQ_DEPTH` queued values (R20); `FAULT` not `None` exactly
when `STATE` is Faulted (R16); the reserved codes absent (R15, R177). -/
abbrev Invariant (s : State) : Prop :=
  s.cfg.Valid ∧ s.len ≤ s.cfg.tapeLimit ∧ s.tape.wf ∧ s.tape.below s.len ∧
  (∀ d ∈ s.cfg.inqDepth, s.inq.length ≤ d) ∧ (s.fault ≠ none ↔ s.status = .faulted) ∧
  s.status ≠ .awaitingMoreInput ∧ s.fault ≠ some .startupParseFault

/-- The states in which the engine can execute: `RUN` is accepted there (R143). -/
abbrev Runnable (s : State) : Prop := s.status = .running ∨ s.status = .suspendedOnOutput

/-- `t` is `s` after `v` was stored in cell `addr`, as data reads and `PEEK` see it: that cell reads `v`, every other
cell of the whole tape reads as before, and `LEN` grew to `addr + 1` where the cell was not present (R34, R45). -/
abbrev StoredIn (s t : State) (addr : Nat) (v : Word) : Prop :=
  t.len = max s.len (addr + 1) ∧ t.cell addr = v ∧ ∀ x, x ≠ addr → t.cell x = s.cell x

/-- Every cell and `LEN` are as they were (an instruction that stores nothing). -/
abbrev TapeKept (s t : State) : Prop := t.len = s.len ∧ ∀ x, t.cell x = s.cell x

/-- `IP` moved past an instruction of `n` cells (R13). -/
abbrev IpPast (s t : State) (n : Nat) : Prop := t.ip.toInt = s.ip.toInt + n

/-- The fault entry of R180 as a relation: `STATE` and `FAULT` record it and every other item is as before. -/
abbrev Faulted (s t : State) (k : FaultKind) : Prop :=
  t.status = .faulted ∧ t.fault = some k ∧ t.ip = s.ip ∧ t.tape = s.tape ∧ t.len = s.len ∧ t.rb = s.rb ∧
  t.inq = s.inq ∧ t.out = s.out ∧ t.cfg = s.cfg

/-- Everything but `IP`, the tape and `LEN` is as it was. -/
abbrev OthersKept (s t : State) : Prop :=
  t.rb = s.rb ∧ t.inq = s.inq ∧ t.status = s.status ∧ t.fault = s.fault ∧ t.out = s.out ∧ t.cfg = s.cfg

/-- Running `i` from `s` takes the fault `k` and does nothing else (R180). -/
abbrev Raises (i : Instr) (s : State) (k : FaultKind) : Prop := ∃ t, exec i s = .next t ∧ Faulted s t k

/-- `v` is the value `i` stores when it runs from `s`, in the words of its rule (R90, R91, R100, R120, R121): the exact sum
or product of the two operands where it is a cell's value, the truth of the comparison, the front of the queue. The other
instructions store nothing. -/
abbrev StoredValue (s : State) (i : Instr) (v : Word) : Prop :=
  match i with
  | .add m1 m2 _ => ∃ a b, resolveRead s 1 m1 = .ok a ∧ resolveRead s 2 m2 = .ok b ∧ v.toInt = a.toInt + b.toInt
  | .multiply m1 m2 _ => ∃ a b, resolveRead s 1 m1 = .ok a ∧ resolveRead s 2 m2 = .ok b ∧ v.toInt = a.toInt * b.toInt
  | .jumpLt m1 m2 _ => ∃ a b, resolveRead s 1 m1 = .ok a ∧ resolveRead s 2 m2 = .ok b ∧
      v.toInt = if a.toInt < b.toInt then 1 else 0
  | .jumpEq m1 m2 _ => ∃ a b, resolveRead s 1 m1 = .ok a ∧ resolveRead s 2 m2 = .ok b ∧
      v.toInt = if a.toInt = b.toInt then 1 else 0
  | .input _ => s.inq.head? = some v
  | .output _ | .jumpIfNz _ _ | .jumpIfZ _ _ | .adjRelBase _ | .exit => False

/-- `n` steps from `s`, each of them `Continue`, lead to `t` (R143). -/
inductive Continues : Nat → State → State → Prop where
  | here {s} : Continues 0 s s
  | more {n s u t} : step s = .next u → stepResult u = .continued → Continues n u t → Continues (n + 1) s t

/-- The outcome with which `RUN` returns on the result of a step; none on `Continue` (R143). -/
def returnedOn : StepResult → Option RunOutcome
  | .continued => none
  | .yielded v => some (.output v)
  | .halted => some .halted
  | .faulted k => some (.fault k)

/-- The same machine with another `INQ_DEPTH`. -/
def withInqDepth (s : State) (d : Option Nat) : State := { s with cfg := { s.cfg with inqDepth := d } }

/-- What holds of an engine at any moment: valid parameters, and the invariant once a machine exists. -/
abbrev EngineInvariant : Engine → Prop
  | .powerUp cfg => cfg.Valid
  | .live s => Invariant s

/-- A safe step of the machine: it has a next state that is not Faulted. -/
def SafeStep (s : State) : Prop := ∃ t, step s = .next t ∧ t.status ≠ .faulted

/-- A run of a program that ends normally (R154): a `RUN` of it returns `Halted`. -/
def EndsNormally (s : State) (outputs : List Word) (t : State) : Prop := ProgramRun s outputs .halted t

end Sys2Proof.Machine
end

