-- ==== Sys2Proof/Certificates/Slice0/Obligations.lean ====
section
/-! DEFINITION. The statements for the provers. Each docstring names the rule of spec/ it formalises, and, where a clause
rests on one of the spec's own decisions (spec/92_eei_decisions.md) or on an entry of the model's log, that decision or
entry. -/

open Sys2Proof Sys2Proof.Machine

/-! ## Encoding -/

/-- Decoding and encoding are inverse, both ways: every decoded instruction comes back from its word, and an instruction
has no second word (R50, R51; the opcode numbers 02 to 09 are D2, the refused words D3, D4). -/
def Obligations.DecodeExactlyInvertsEncode : Prop :=
  ∀ (w : Word) (i : Instr), decodeWord w = .ok i ↔ w = encode i

/-- The classification of every 64-bit value as an instruction word (R59): it decodes exactly when it is not negative
(D3), its two low digits are an opcode, every consumed digit is 0, 1 or 2, and nothing is above them (D4). -/
def Obligations.WordDecodesIffDigitsLegal : Prop :=
  ∀ w : Word, (∃ i, decodeWord w = .ok i) ↔
    0 ≤ w.toInt ∧ ∃ n, operandCount (w.toNat % 100) = some n ∧
      (∀ k < n, w.toNat / 10 ^ (k + 2) % 10 ≤ 2) ∧ w.toNat / 10 ^ (n + 2) = 0

/-- A consumed mode digit 3 .. 9 is a decode fault of the word, whatever its operands are; mode 1 on a write operand is
a legal digit, decodes, and fails in the resolver (R56). That `IP` stays at the word is R180 by D13; the operand counts of
the numbers 02 to 09 are D2. -/
def Obligations.ConsumedDigitAboveTwoFaults : Prop :=
  (∀ (w : Word) (n k : Nat), operandCount (w.toNat % 100) = some n → k < n →
    3 ≤ w.toNat / 10 ^ (k + 2) % 10 →
    ∀ s, Runnable s → fetchCell s 0 = .ok w →
      ∃ t, step s = .next t ∧ t.status = .faulted ∧ t.fault = some .decodeFault ∧ t.ip = s.ip) ∧
  ∀ i : Instr, i.writeMode = some .immediate → decodeWord (encode i) = .ok i ∧
    ∀ s c, fetchCell s i.roles.length = .ok c →
      resolveWriteAddr s i.roles.length .immediate = .error .invalidWriteTarget

/-- The opcode alone fixes the length, and decoding depends on nothing but the word at `IP` (R60, R50; the counts
of the numbers 02 to 09 are D2). -/
def Obligations.OpcodeAloneFixesLength : Prop :=
  (∀ (w : Word) (i : Instr), decodeWord w = .ok i →
    operandCount (w.toNat % 100) = some i.roles.length ∧ i.modes.length = i.roles.length ∧
      i.cells = 1 + i.roles.length) ∧
  ∀ s t : State, fetchCell s 0 = fetchCell t 0 → fetchInstr s = fetchInstr t

/-- The operands and their roles; a write operand is the last one, and it is the operand `writeMode` names (R54). -/
def Obligations.OperandRolesOfEveryOpcode : Prop :=
  (∀ a b d : Mode, (Instr.add a b d).roles = [.read, .read, .write] ∧
    (Instr.multiply a b d).roles = [.read, .read, .write] ∧ (Instr.jumpLt a b d).roles = [.read, .read, .write] ∧
    (Instr.jumpEq a b d).roles = [.read, .read, .write] ∧ (Instr.jumpIfNz a b).roles = [.read, .read] ∧
    (Instr.jumpIfZ a b).roles = [.read, .read] ∧ (Instr.input d).roles = [.write] ∧
    (Instr.output a).roles = [.read] ∧ (Instr.adjRelBase a).roles = [.read] ∧ Instr.exit.roles = []) ∧
  ∀ i : Instr, (.write ∈ i.roles ↔ i.writeMode ≠ none) ∧
    (.write ∈ i.roles → i.roles.getLast? = some .write ∧ i.modes.getLast? = i.writeMode)

/-- Words written out from the spec's encodings (R51, R70; numbers 02 to 09 by D2, refusals by D3, D4). -/
def Obligations.WrittenOutWordsDecode : Prop :=
  decodeWord 1101#64 = .ok (.add .immediate .immediate .position) ∧
  decodeWord 22202#64 = .ok (.multiply .relative .relative .relative) ∧
  decodeWord 203#64 = .ok (.input .relative) ∧ decodeWord 104#64 = .ok (.output .immediate) ∧
  decodeWord 1005#64 = .ok (.jumpIfNz .position .immediate) ∧
  decodeWord 2106#64 = .ok (.jumpIfZ .immediate .relative) ∧
  decodeWord 21107#64 = .ok (.jumpLt .immediate .immediate .relative) ∧
  decodeWord 1008#64 = .ok (.jumpEq .position .immediate .position) ∧
  decodeWord 209#64 = .ok (.adjRelBase .relative) ∧ decodeWord 99#64 = .ok .exit ∧
  decodeWord 0#64 = .error .unknownOpcode ∧ decodeWord 301#64 = .error .illegalMode ∧
  decodeWord 1199#64 = .error .surplusDigit ∧ decodeWord (-1#64) = .error .negativeWord

/-- Every word that decodes is at most 22208 (R57; rests on D2 and D4). -/
def Obligations.DecodedWordsAtMost22208 : Prop :=
  ∀ (w : Word) (i : Instr), decodeWord w = .ok i → w.toNat ≤ 22208

/-! ## The tape and the operand resolver -/

/-- A fetch answers the cell inside `0 .. LEN-1` and is an `AddressFault` everywhere else, never an implicit 0 (R32; for
operand cells D10). -/
def Obligations.FetchFaultsOutsideTape : Prop :=
  ∀ (s : State) (k : Nat),
    (0 ≤ s.ip.toInt + k → s.ip.toInt + k < s.len →
      fetchCell s k = .ok (s.tape.read (s.ip.toInt + k).toNat)) ∧
    (s.ip.toInt + k < 0 → fetchCell s k = .error .addressFault) ∧
    ((s.len : Int) ≤ s.ip.toInt + k → fetchCell s k = .error .addressFault)

/-- `ResolveRead` in its three modes: the operand cell first, then the cell at its value, the cell itself, or the cell at
its value plus `RB`, the sum exact; 0 at and beyond `LEN`; `AddressFault` on an address that is negative or above
2^63-1 (R71, R33; the fault above 2^63-1 is D7, the fault of an operand cell's fetch D10). -/
def Obligations.ResolveReadInEveryMode : Prop :=
  ∀ (s : State) (k : Nat),
    (∀ m e, fetchCell s k = .error e → resolveRead s k m = .error .addressFault) ∧
    ∀ c, fetchCell s k = .ok c →
      resolveRead s k .immediate = .ok c ∧
      ∀ (m : Mode) (z : Int), (m = .position ∧ z = c.toInt) ∨ (m = .relative ∧ z = c.toInt + s.rb.toInt) →
        (z < 0 → resolveRead s k m = .error .addressFault) ∧
        (9223372036854775807 < z → resolveRead s k m = .error .addressFault) ∧
        (0 ≤ z → z < s.len → z ≤ 9223372036854775807 → resolveRead s k m = .ok (s.tape.read z.toNat)) ∧
        ((s.len : Int) ≤ z → 0 ≤ z → z ≤ 9223372036854775807 → resolveRead s k m = .ok 0#64)

/-- `ResolveWriteAddr` in its three modes, with the order of its checks: the cell's fetch, mode 1, the address, the
capacity (R72; rests on D7, D8, D14). -/
def Obligations.ResolveWriteAddrInEveryMode : Prop :=
  ∀ (s : State) (k : Nat),
    (∀ m e, fetchCell s k = .error e → resolveWriteAddr s k m = .error .addressFault) ∧
    ∀ c, fetchCell s k = .ok c →
      resolveWriteAddr s k .immediate = .error .invalidWriteTarget ∧
      ∀ (m : Mode) (z : Int), (m = .position ∧ z = c.toInt) ∨ (m = .relative ∧ z = c.toInt + s.rb.toInt) →
        (z < 0 → resolveWriteAddr s k m = .error .addressFault) ∧
        (9223372036854775807 < z → resolveWriteAddr s k m = .error .addressFault) ∧
        (0 ≤ z → z ≤ 9223372036854775807 → (s.cfg.tapeLimit : Int) ≤ z →
          resolveWriteAddr s k m = .error .capacityFault) ∧
        (0 ≤ z → z ≤ 9223372036854775807 → z < s.cfg.tapeLimit → resolveWriteAddr s k m = .ok z.toNat)

/-- No negative address is wrapped or clamped: a negative effective address of a read or a write operand, and a negative
`IP` at a fetch, is an `AddressFault` (R35). That the fault leaves `IP` where it was is R180 by D13. -/
def Obligations.NegativeAddressNeverWraps : Prop :=
  (∀ (s : State) (k : Nat) (m : Mode) (c : Word), fetchCell s k = .ok c →
    (m = .position ∧ c.toInt < 0) ∨ (m = .relative ∧ c.toInt + s.rb.toInt < 0) →
    resolveRead s k m = .error .addressFault ∧ resolveWriteAddr s k m = .error .addressFault) ∧
  ∀ s : State, Runnable s → s.ip.toInt < 0 →
    ∃ t, step s = .next t ∧ t.status = .faulted ∧ t.fault = some .addressFault ∧ t.ip = s.ip

/-- Growth is observably zero: a cell never written reads 0, the image's cells hold the image, a store changes its own
cell only, and the cells a growing store creates read 0 (R45). -/
def Obligations.GrowthReadsZero : Prop :=
  (∀ (cfg : Config) (image : List Word) (x : Nat), (resetImage cfg image).cell x = image.getD x 0#64) ∧
  ∀ s : State, Invariant s →
    (∀ x, s.len ≤ x → s.tape.read x = 0#64 ∧ s.cell x = 0#64) ∧
    ∀ (x : Nat) (v : Word), StoredIn s (s.memWrite x v) x v ∧
      ∀ y, s.len ≤ y → y < x → y < (s.memWrite x v).len ∧ (s.memWrite x v).tape.read y = 0#64

/-! ## The instructions

Each statement gives the instruction's encoding, its completion with everything it changes and keeps, and its faults in
the order they are checked. -/

/-- The shape Add and Multiply share. -/
abbrev Sys2Proof.Machine.ArithmeticRule (i : Mode → Mode → Mode → Instr) (opcode : Nat) (f : Int → Int → Int) : Prop :=
  ∀ (m1 m2 m3 : Mode) (s : State), Invariant s →
    (encode (i m1 m2 m3)).toNat = 10000 * m3.digit + 1000 * m2.digit + 100 * m1.digit + opcode ∧
    (∀ a b x, resolveRead s 1 m1 = .ok a → resolveRead s 2 m2 = .ok b → Fits64 (f a.toInt b.toInt) →
      resolveWriteAddr s 3 m3 = .ok x →
      ∃ t r, exec (i m1 m2 m3) s = .next t ∧ r.toInt = f a.toInt b.toInt ∧ StoredIn s t x r ∧ IpPast s t 4 ∧
        OthersKept s t) ∧
    (∀ k, resolveRead s 1 m1 = .error k → Raises (i m1 m2 m3) s k) ∧
    (∀ a k, resolveRead s 1 m1 = .ok a → resolveRead s 2 m2 = .error k → Raises (i m1 m2 m3) s k) ∧
    (∀ a b, resolveRead s 1 m1 = .ok a → resolveRead s 2 m2 = .ok b → ¬ Fits64 (f a.toInt b.toInt) →
      Raises (i m1 m2 m3) s .arithmeticOverflow) ∧
    (∀ a b k, resolveRead s 1 m1 = .ok a → resolveRead s 2 m2 = .ok b → Fits64 (f a.toInt b.toInt) →
      resolveWriteAddr s 3 m3 = .error k → Raises (i m1 m2 m3) s k)

/-- Add: `dest := a + b`, exact; overflow is a fault and is found before the write operand (R90, R92; the overflow fault
is D5, the order D14, that a fault commits nothing D13). -/
def Obligations.AddStoresExactSum : Prop := ArithmeticRule .add 1 (fun a b => a + b)

/-- Multiply: `dest := a * b`, exact and signed (R91, R92; number D2, overflow D5, order D14, precision D13). -/
def Obligations.MultiplyStoresExactProduct : Prop := ArithmeticRule .multiply 2 (fun a b => a * b)

/-- The shape JumpLt and JumpEq share: no overflow is possible. -/
abbrev Sys2Proof.Machine.ComparisonRule (i : Mode → Mode → Mode → Instr) (opcode : Nat) (p : Int → Int → Prop) : Prop :=
  ∀ (m1 m2 m3 : Mode) (s : State), Invariant s →
    (encode (i m1 m2 m3)).toNat = 10000 * m3.digit + 1000 * m2.digit + 100 * m1.digit + opcode ∧
    (∀ a b x, resolveRead s 1 m1 = .ok a → resolveRead s 2 m2 = .ok b → resolveWriteAddr s 3 m3 = .ok x →
      ∃ t r, exec (i m1 m2 m3) s = .next t ∧ (p a.toInt b.toInt → r = 1#64) ∧ (¬ p a.toInt b.toInt → r = 0#64) ∧
        StoredIn s t x r ∧ IpPast s t 4 ∧ OthersKept s t) ∧
    (∀ k, resolveRead s 1 m1 = .error k → Raises (i m1 m2 m3) s k) ∧
    (∀ a k, resolveRead s 1 m1 = .ok a → resolveRead s 2 m2 = .error k → Raises (i m1 m2 m3) s k) ∧
    (∀ a b k, resolveRead s 1 m1 = .ok a → resolveRead s 2 m2 = .ok b → resolveWriteAddr s 3 m3 = .error k →
      Raises (i m1 m2 m3) s k)

/-- JumpLt: `dest := 1 if a < b else 0`, signed (R120; number D2, fault order D14, precision D13). -/
def Obligations.JumpLtStoresTruthOfLess : Prop := ComparisonRule .jumpLt 7 (fun a b => a < b)

/-- JumpEq: `dest := 1 if a = b else 0` (R121; number D2, fault order D14, precision D13). -/
def Obligations.JumpEqStoresTruthOfEqual : Prop := ComparisonRule .jumpEq 8 (fun a b => a = b)

/-- Despite their names the comparisons never change the flow of control: a comparison that does not fault stores 1 or 0
in its destination and goes on at `A + 4` (R122). -/
def Obligations.ComparisonsNeverJump : Prop :=
  ∀ (m1 m2 m3 : Mode) (i : Instr) (s t : State), i = .jumpLt m1 m2 m3 ∨ i = .jumpEq m1 m2 m3 → Invariant s →
    s.status = .running → exec i s = .next t → t.status ≠ .faulted →
    ∃ x r, resolveWriteAddr s 3 m3 = .ok x ∧ (r = 1#64 ∨ r = 0#64) ∧ StoredIn s t x r ∧ IpPast s t 4

/-- Input: the front of the queue goes to `dest`; the empty queue is the fault `InputExhausted`, checked before the
write operand; a faulting Input pops nothing (R100; number D2, empty queue D11, order D14, precision D13). -/
def Obligations.InputPopsQueueIntoDest : Prop :=
  ∀ (m1 : Mode) (s : State), Invariant s →
    (encode (.input m1)).toNat = 100 * m1.digit + 3 ∧
    (∀ v rest x, s.inq = v :: rest → resolveWriteAddr s 1 m1 = .ok x →
      ∃ t, exec (.input m1) s = .next t ∧ StoredIn s t x v ∧ t.inq = rest ∧ IpPast s t 2 ∧ t.rb = s.rb ∧
        t.status = s.status ∧ t.fault = s.fault ∧ t.out = s.out ∧ t.cfg = s.cfg) ∧
    (s.inq = [] → Raises (.input m1) s .inputExhausted) ∧
    (∀ v rest k, s.inq = v :: rest → resolveWriteAddr s 1 m1 = .error k → Raises (.input m1) s k)

/-- Output: `OUT := a`, the machine suspends with `IP` at the next instruction, the tape and the rest kept (R101;
number D2). -/
def Obligations.OutputYieldsAndSuspends : Prop :=
  ∀ (m1 : Mode) (s : State), Invariant s →
    (encode (.output m1)).toNat = 100 * m1.digit + 4 ∧
    (∀ a, resolveRead s 1 m1 = .ok a →
      ∃ t, exec (.output m1) s = .next t ∧ t.out = a ∧ t.status = .suspendedOnOutput ∧
        stepResult t = .yielded a ∧ IpPast s t 2 ∧ TapeKept s t ∧ t.rb = s.rb ∧ t.inq = s.inq ∧
        t.fault = s.fault ∧ t.cfg = s.cfg) ∧
    (∀ k, resolveRead s 1 m1 = .error k → Raises (.output m1) s k)

/-- The shape the conditional jumps share: both operands are always resolved; nothing but `IP` changes. -/
abbrev Sys2Proof.Machine.JumpRule (i : Mode → Mode → Instr) (opcode : Nat) (taken : Int → Prop) : Prop :=
  ∀ (m1 m2 : Mode) (s : State), Invariant s →
    (encode (i m1 m2)).toNat = 1000 * m2.digit + 100 * m1.digit + opcode ∧
    (∀ a target, resolveRead s 1 m1 = .ok a → resolveRead s 2 m2 = .ok target →
      ∃ t, exec (i m1 m2) s = .next t ∧ (taken a.toInt → t.ip = target) ∧ (¬ taken a.toInt → IpPast s t 3) ∧
        TapeKept s t ∧ OthersKept s t) ∧
    (∀ k, resolveRead s 1 m1 = .error k → Raises (i m1 m2) s k) ∧
    (∀ a k, resolveRead s 1 m1 = .ok a → resolveRead s 2 m2 = .error k → Raises (i m1 m2) s k)

/-- JumpIfNz: `IP := target` when `a` is not 0 (R110; number D2, `target` always resolved D15). -/
def Obligations.JumpIfNzJumpsOnNonzero : Prop := JumpRule .jumpIfNz 5 (fun a => a ≠ 0)

/-- JumpIfZ: `IP := target` when `a` is 0 (R111; number D2, `target` always resolved D15). -/
def Obligations.JumpIfZJumpsOnZero : Prop := JumpRule .jumpIfZ 6 (fun a => a = 0)

/-- A taken jump loads the target unchanged, whatever it is, and completes; the next step fetches there, and where the
target is no cell of the tape that step is an `AddressFault` with `IP` still at the bad target (R112; that a fault leaves `IP` is
R13 by D13). -/
def Obligations.TargetCheckedByNextFetch : Prop :=
  ∀ (m1 m2 : Mode) (s : State) (i : Instr) (a target : Word),
    (i = .jumpIfNz m1 m2 ∧ a ≠ 0#64) ∨ (i = .jumpIfZ m1 m2 ∧ a = 0#64) → Runnable s →
    resolveRead s 1 m1 = .ok a → resolveRead s 2 m2 = .ok target →
    ∃ t, exec i s = .next t ∧ t.ip = target ∧ t.status = s.status ∧ t.fault = s.fault ∧
      (0 ≤ target.toInt → target.toInt < s.len → fetchCell t 0 = .ok (s.tape.read target.toInt.toNat)) ∧
      (target.toInt < 0 ∨ (s.len : Int) ≤ target.toInt →
        ∃ u, step t = .next u ∧ u.status = .faulted ∧ u.fault = some .addressFault ∧ u.ip = target)

/-- AdjRelBase: `RB := RB + a`, exact, the operand read with the old `RB`; nothing else but `IP` changes (R130; number
D2, overflow D5, precision D13). -/
def Obligations.AdjRelBaseAddsToBase : Prop :=
  ∀ (m1 : Mode) (s : State), Invariant s →
    (encode (.adjRelBase m1)).toNat = 100 * m1.digit + 9 ∧
    (∀ a, resolveRead s 1 m1 = .ok a → Fits64 (s.rb.toInt + a.toInt) →
      ∃ t, exec (.adjRelBase m1) s = .next t ∧ t.rb.toInt = s.rb.toInt + a.toInt ∧ IpPast s t 2 ∧ TapeKept s t ∧
        t.inq = s.inq ∧ t.status = s.status ∧ t.fault = s.fault ∧ t.out = s.out ∧ t.cfg = s.cfg) ∧
    (∀ k, resolveRead s 1 m1 = .error k → Raises (.adjRelBase m1) s k) ∧
    (∀ a, resolveRead s 1 m1 = .ok a → ¬ Fits64 (s.rb.toInt + a.toInt) →
      Raises (.adjRelBase m1) s .arithmeticOverflow)

/-- Exit: the machine halts with `IP` behind the word 99, everything else kept; no later `RUN` executes anything
(R131; that it is rejected with nothing changed is R145 by D16, log 5). -/
def Obligations.ExitHalts : Prop :=
  (encode .exit).toNat = 99 ∧
  ∀ s : State, Invariant s → fetchCell s 0 = .ok (encode .exit) →
    ∃ t, exec .exit s = .next t ∧ t.status = .halted ∧ stepResult t = .halted ∧ IpPast s t 1 ∧ TapeKept s t ∧
      t.rb = s.rb ∧ t.inq = s.inq ∧ t.fault = s.fault ∧ t.out = s.out ∧ t.cfg = s.cfg ∧
      ∀ fuel, runFor (fuel + 1) t = .returned .rejected t

/-- `Add [c], [c], [c]` doubles cell `c`, wherever `c` lies: also where it is an operand cell or the word of the
instruction itself, since every fetch and read precedes the store (R93). -/
def Obligations.OverlappingAddReadsOldValues : Prop :=
  ∀ (s : State) (c : Word), Invariant s → fetchCell s 1 = .ok c → fetchCell s 2 = .ok c → fetchCell s 3 = .ok c →
    0 ≤ c.toInt → c.toInt < s.cfg.tapeLimit → Fits64 (2 * (s.cell c.toInt.toNat).toInt) →
    ∃ t, exec (.add .position .position .position) s = .next t ∧
      (t.cell c.toInt.toNat).toInt = 2 * (s.cell c.toInt.toNat).toInt ∧
      ∀ y, y ≠ c.toInt.toNat → t.cell y = s.cell y

/-- A store is seen by every later fetch, the very next one included. An instruction with a write operand that resolves
to cell `x` completes with its own value `v` in that cell; every cell of the next instruction that is cell `x` is then
fetched as `v`, and where `x` is the next instruction's word, what `v` decodes to is what runs (R44; the stored values are
those of R90, R91, R100, R120, R121; numbers D2, refused words D3, D4). -/
def Obligations.StoredWordRunsNext : Prop :=
  ∀ (i : Instr) (m : Mode) (s : State) (x : Nat) (v : Word), Invariant s → s.status = .running →
    i.writeMode = some m → resolveWriteAddr s i.roles.length m = .ok x → StoredValue s i v →
    ∃ t, exec i s = .next t ∧ StoredIn s t x v ∧ IpPast s t i.cells ∧
      (∀ k : Nat, t.ip.toInt + k = x → fetchCell t k = .ok v) ∧
      ∀ j, t.ip.toInt = x → decodeWord v = .ok j → step t = exec j t

/-! ## The step and the loop -/

/-- Where the bytes at `IP` decode to `i`, a step is the execution of `i`, in `STATE = Running` (R74, R143). Around
`exec` the step adds nothing but that: `exec` itself moves `IP` past the cells. -/
def Obligations.StepRunsDecodedInstruction : Prop :=
  ∀ (s : State) (w : Word) (i : Instr), Runnable s → fetchCell s 0 = .ok w → decodeWord w = .ok i →
    step s = exec i (s.setStatus .running)

/-- A step whose word cannot be fetched is an `AddressFault`, one whose word does not decode a `DecodeFault`; nothing
but `STATE` and `FAULT` changes (R171, R174, R180; precision D13). -/
def Obligations.StepFaultsWithoutInstruction : Prop :=
  ∀ s : State, Runnable s →
    (fetchCell s 0 = .error .addressFault → ∃ t, step s = .next t ∧ Faulted s t .addressFault) ∧
    ∀ w e, fetchCell s 0 = .ok w → decodeWord w = .error e → ∃ t, step s = .next t ∧ Faulted s t .decodeFault

/-- A step is a total function of the tape, `LEN`, `IP`, `RB`, `INQ` and the parameters: two machines that agree on
those both have a next state, and the two agree on all of them again, on `STATE` and on the step's result (R142; that a
step in SuspendedOnOutput is one of these steps is log 4, that its result is read off the registers log 12). That of the
parameters `INQ_DEPTH` is unused is `InqDepthUnusedBySteps`. -/
def Obligations.StepIsFunctionOfItsInputs : Prop :=
  ∀ s t : State, Runnable s → Runnable t → t.cfg = s.cfg → t.tape = s.tape → t.len = s.len → t.ip = s.ip →
    t.rb = s.rb → t.inq = s.inq →
    ∃ s' t', step s = .next s' ∧ step t = .next t' ∧ t'.cfg = s'.cfg ∧ t'.tape = s'.tape ∧ t'.len = s'.len ∧
      t'.ip = s'.ip ∧ t'.rb = s'.rb ∧ t'.inq = s'.inq ∧ t'.status = s'.status ∧ stepResult t' = stepResult s'

/-- `INQ_DEPTH` is unused by steps: whatever it is changed to, a step goes the same way (R142; that a step in
SuspendedOnOutput is one of these steps is log 4). -/
def Obligations.InqDepthUnusedBySteps : Prop :=
  ∀ (s t : State) (d : Option Nat), step s = .next t → step (withInqDepth s d) = .next (withInqDepth t d)

/-- Where the engine can execute, a step always answers (R142), and it is either safe or a precise fault: one that enters
Faulted, records the kind and changes nothing else (R180; D13). -/
def Obligations.StepIsSafeOrPreciseFault : Prop :=
  ∀ s : State, Runnable s → SafeStep s ∨ ∃ t k, step s = .next t ∧ Faulted s t k

/-- Who may write what inside a step, the engine's writes of R23 (those of `IP` are `InstructionPointerRule`): `RB` only
AdjRelBase, `OUT` only Output, `INQ` only Input and only its front, `STATE` only Output, Exit and faults, `FAULT` only
faults, the parameters nothing; the tape and `LEN` only the five instructions with a write operand. Such an instruction
faults where that operand does not resolve, and where it resolves to cell `x` it faults, or stores its own value in that
cell and in no other, `LEN` growing to `x + 1` where `x` lies at or beyond it (R14 to R18, R20, R23, R34; widths and
capacities D6, D8, D9, the registers of outcome and fault D12, that a fault changes nothing else R180 by D13). -/
def Obligations.InstructionWriteRights : Prop :=
  ∀ (i : Instr) (s t : State), exec i s = .next t →
    (t.rb ≠ s.rb → ∃ m, i = .adjRelBase m) ∧ (t.out ≠ s.out → ∃ m, i = .output m) ∧
    (t.inq ≠ s.inq → ∃ m v, i = .input m ∧ s.inq = v :: t.inq) ∧
    (t.status ≠ s.status → (∃ m, i = .output m ∧ t.status = .suspendedOnOutput) ∨ (i = .exit ∧ t.status = .halted) ∨
      ∃ k, Faulted s t k) ∧
    (t.fault ≠ s.fault → ∃ k, Faulted s t k) ∧ t.cfg = s.cfg ∧
    (i.writeMode = none → t.tape = s.tape ∧ t.len = s.len) ∧
    ∀ m, i.writeMode = some m →
      (∀ e, resolveWriteAddr s i.roles.length m = .error e → ∃ k, Faulted s t k) ∧
      ∀ x, resolveWriteAddr s i.roles.length m = .ok x → Invariant s →
        (∃ k, Faulted s t k) ∨ ∃ v, StoredValue s i v ∧ StoredIn s t x v

/-- How `IP` changes: past the instruction's cells, or to the target of a taken jump, or not at all by a fault (R13;
widths D6, precision D13). -/
def Obligations.InstructionPointerRule : Prop :=
  ∀ (i : Instr) (s t : State) (w : Word), Invariant s → s.status = .running → fetchCell s 0 = .ok w →
    exec i s = .next t →
    (t.status = .faulted ∧ t.ip = s.ip) ∨
    (t.status ≠ .faulted ∧
      (IpPast s t i.cells ∨
        ∃ m1 m2, (i = .jumpIfNz m1 m2 ∨ i = .jumpIfZ m1 m2) ∧ resolveRead s 2 m2 = .ok t.ip))

/-- The machine halts exactly by the word 99 at `IP`, and a run that ends normally leaves it Halted (R154). That no other
word halts, 1099 and the negative ones among them, is R57 by D4 and R52 by D3 (log 10). -/
def Obligations.OnlyExitEndsNormally : Prop :=
  (∀ s t : State, step s = .next t → (t.status = .halted ↔ ∃ w, fetchCell s 0 = .ok w ∧ w.toInt = 99)) ∧
  ∀ (s t : State) (outputs : List Word), EndsNormally s outputs t → t.status = .halted

/-- The reserved codes stay unused: no step enters AwaitingMoreInput or records `StartupParseFault` (R150, R177; D11,
D12). -/
def Obligations.ReservedCodesNeverEntered : Prop :=
  ∀ s t : State, step s = .next t → t.status ≠ .awaitingMoreInput ∧
    (s.fault ≠ some .startupParseFault → t.fault ≠ some .startupParseFault)

/-- A `RUN` on a Halted or Faulted machine executes no instruction and changes nothing: the step is refused and the
transaction answers `Rejected` (R145; D16). -/
def Obligations.FinishedMachineRejectsRun : Prop :=
  ∀ s : State, s.status = .halted ∨ s.status = .faulted →
    step s = .refused .runRejected ∧
    ∀ fuel, transact (fuel + 1) .run (.live s) = some (.outcome .rejected, .live s)

/-- A suspended machine resumes exactly where it was: the next step is the one the machine would take had Output not
suspended it; meanwhile the host can change nothing but append to `INQ` (R144). That a step in SuspendedOnOutput is the
first turn of the host's next `RUN` is the model's choice, log 4. -/
def Obligations.SuspensionKeepsContinuation : Prop :=
  ∀ s : State, s.status = .suspendedOnOutput →
    step s = step (s.setStatus .running) ∧
    ∀ (fuel : Nat) (tr : Transaction) (r : Reply) (e : Engine), tr ≠ .run → (∀ image, tr ≠ .reset image) →
      transact fuel tr (.live s) = some (r, e) → ∃ added, e = .live (s.setInq (s.inq ++ added))

/-! ## Runs -/

/-- The outcome of a `RUN` says what the registers say: Output with `STATE = SuspendedOnOutput` and `OUT` the value,
Halted, a fault recorded in `FAULT`, or Rejected with nothing changed (R152; `Rejected` is R145 by D16, the registers
`STATE` and `FAULT` are D12, and that the outcome is read off them is log 12). -/
def Obligations.RunOutcomeMatchesRegisters : Prop :=
  ∀ (s t : State) (o : RunOutcome), RunReturns s o t →
    match o with
    | .output v => t.status = .suspendedOnOutput ∧ t.out = v
    | .halted => t.status = .halted
    | .fault k => t.status = .faulted ∧ t.fault = some k
    | .rejected => (s.status = .halted ∨ s.status = .faulted) ∧ t = s

/-- A `RUN` returns at most one outcome and one state, however long it is watched (R142, R143). -/
def Obligations.RunIsDeterministic : Prop :=
  ∀ (s t t' : State) (o o' : RunOutcome), RunReturns s o t → RunReturns s o' t' → o = o' ∧ t = t'

/-- A `RUN` whose steps are all `Continue` does not return (R149): shown for every set of states that `Continue` never
leaves. -/
def Obligations.EndlessRunNeverReturns : Prop :=
  ∀ P : State → Prop, (∀ s, P s → ∃ t, step s = .next t ∧ stepResult t = .continued ∧ P t) →
    ∀ s, P s → ∀ o t, ¬ RunReturns s o t

/-- One turn of the loop of `RUN`. Wherever `RUN` is accepted a step answers, and the `RUN` returns at once with that
step's state on Output, Exit and a fault, and on `Continue` returns exactly what the rest of it returns (R143; that a step
is a turn of the loop is log 4, that its result is read off the registers log 12). -/
def Obligations.RunFollowsItsSteps : Prop :=
  ∀ s : State, Runnable s → ∃ t, step s = .next t ∧
    (∀ v, stepResult t = .yielded v → RunReturns s (.output v) t) ∧
    (stepResult t = .halted → RunReturns s .halted t) ∧
    (∀ k, stepResult t = .faulted k → RunReturns s (.fault k) t) ∧
    (stepResult t = .continued → ∀ o u, RunReturns s o u ↔ RunReturns t o u)

/-- The one liveness fact: a `RUN` whose steps reach an Output, an Exit or a fault returns after that many steps, not
before, with that step's outcome and state, to the host as well (R206 by D1, R143; that a `RUN` is watched for a number of
steps is log 4, that a step's result is read off the registers log 12). -/
def Obligations.RunReturnsAfterItsSteps : Prop :=
  ∀ (n : Nat) (s t u : State) (o : RunOutcome), Continues n s t → step t = .next u →
    returnedOn (stepResult u) = some o →
    RunReturns s o u ∧
    ∀ fuel, (fuel ≤ n → transact fuel .run (.live s) = none) ∧
      (n < fuel → transact fuel .run (.live s) = some (.outcome o, .live u))

/-- A finished machine stays finished: no transaction but `RESET` changes anything of a Halted or Faulted machine, but
for values appended to `INQ` (R145, R146, R181; D13, D16, D22). -/
def Obligations.FinishedMachineStaysFinished : Prop :=
  ∀ (fuel : Nat) (tr : Transaction) (s : State) (r : Reply) (e : Engine),
    s.status = .halted ∨ s.status = .faulted → (∀ image, tr ≠ .reset image) →
    transact fuel tr (.live s) = some (r, e) → ∃ added, e = .live (s.setInq (s.inq ++ added))

/-! ## The host's transactions -/

/-- `PUSH_INPUT`: in every state, appended and `Accepted` where there is room, nothing changed and `Full` where there is
none; with an unbounded queue there always is (R146; D9, D22). -/
def Obligations.PushInputAppendsOrReportsFull : Prop :=
  ∀ (fuel : Nat) (v : Word) (s : State),
    (s.cfg.inqDepth = none →
      transact fuel (.pushInput v) (.live s) = some (.accepted, .live (s.setInq (s.inq ++ [v])))) ∧
    ∀ d, s.cfg.inqDepth = some d →
      (s.inq.length < d →
        transact fuel (.pushInput v) (.live s) = some (.accepted, .live (s.setInq (s.inq ++ [v])))) ∧
      (d ≤ s.inq.length → transact fuel (.pushInput v) (.live s) = some (.full, .live s))

/-- `RESET(image)`: from every state and from power-up, an image that fits creates a machine with every item at its
reset value, the image in the cells and 0 beyond; one that does not fit is refused (R24, R147, R200; D17; that a refused
`RESET` leaves an existing machine as it was is the model's choice, log 9). -/
def Obligations.ResetCreatesMachineFromImage : Prop :=
  ∀ (fuel : Nat) (image : List Word) (e : Engine),
    (image.length ≤ e.cfg.tapeLimit →
      ∃ s, transact fuel (.reset image) e = some (.created, .live s) ∧ s.cfg = e.cfg ∧ s.len = image.length ∧
        s.ip = 0#64 ∧ s.rb = 0#64 ∧ s.inq = [] ∧ s.status = .running ∧ s.fault = none ∧ s.out = 0#64 ∧
        (∀ x, x < image.length → s.cell x = image.getD x 0#64) ∧ ∀ x, image.length ≤ x → s.cell x = 0#64) ∧
    (e.cfg.tapeLimit < image.length → transact fuel (.reset image) e = some (.refused, e))

/-- Before the first `RESET` every other transaction is refused (R200; D17). -/
def Obligations.PowerUpRefusesAllButReset : Prop :=
  ∀ (fuel : Nat) (tr : Transaction) (cfg : Config), (∀ image, tr ≠ .reset image) →
    transact fuel tr (.powerUp cfg) = some (.refused, .powerUp cfg)

/-- `PEEK` answers the cell, 0 at and beyond `LEN`, and status reads answer the registers with the codes of R15 and R16;
neither has an effect (R46, R148; codes D12, D24, interface D18). -/
def Obligations.HostReadsHaveNoEffect : Prop :=
  ∀ (fuel : Nat) (s : State),
    (∀ a : Fin 9223372036854775808, ∃ v, transact fuel (.peek a) (.live s) = some (.cell v, .live s) ∧
      ((a : Nat) < s.len → v = s.tape.read a) ∧ (s.len ≤ (a : Nat) → v = 0#64)) ∧
    transact fuel (.readStatus .len) (.live s) = some (.status s.len, .live s) ∧
    transact fuel (.readStatus .ip) (.live s) = some (.status s.ip.toInt, .live s) ∧
    transact fuel (.readStatus .rb) (.live s) = some (.status s.rb.toInt, .live s) ∧
    transact fuel (.readStatus .inqLength) (.live s) = some (.status s.inq.length, .live s) ∧
    transact fuel (.readStatus .out) (.live s) = some (.status s.out.toInt, .live s) ∧
    (∃ z, transact fuel (.readStatus .state) (.live s) = some (.status z, .live s) ∧
      (z = 0 ↔ s.status = .running) ∧ (z = 1 ↔ s.status = .suspendedOnOutput) ∧ (z = 2 ↔ s.status = .halted) ∧
      (z = 3 ↔ s.status = .faulted) ∧ (z = 4 ↔ s.status = .awaitingMoreInput)) ∧
    ∃ z, transact fuel (.readStatus .fault) (.live s) = some (.status z, .live s) ∧
      (z = 0 ↔ s.fault = none) ∧ (z = 1 ↔ s.fault = some .decodeFault) ∧
      (z = 2 ↔ s.fault = some .invalidWriteTarget) ∧ (z = 3 ↔ s.fault = some .inputExhausted) ∧
      (z = 4 ↔ s.fault = some .addressFault) ∧ (z = 5 ↔ s.fault = some .startupParseFault) ∧
      (z = 6 ↔ s.fault = some .arithmeticOverflow) ∧ (z = 7 ↔ s.fault = some .capacityFault)

/-! ## The invariant -/

/-- The invariant holds after every `RESET` that is accepted, and in `State.reset` (R24, R45; the parameters of
`State.reset` are log 3). -/
def Obligations.InvariantHoldsAfterReset : Prop :=
  Invariant State.reset ∧
  ∀ (cfg : Config) (image : List Word), cfg.Valid → image.length ≤ cfg.tapeLimit → Invariant (resetImage cfg image)

/-- Every step keeps the invariant (R15, R16, R18, R20, R45). -/
def Obligations.StepKeepsInvariant : Prop := ∀ s t : State, Invariant s → step s = .next t → Invariant t

/-- Every transaction of the host keeps the invariant, a whole `RUN` included (R141, R146, R147, R148). -/
def Obligations.TransactionsKeepInvariant : Prop :=
  ∀ (fuel : Nat) (tr : Transaction) (e e' : Engine) (r : Reply), EngineInvariant e →
    transact fuel tr e = some (r, e') → EngineInvariant e'
end

