-- ==== Sys2Proof/Laws/Decode.lean ====
section
/-! SUPPORT. The small lemmas of the decoder and the encoder: the digits of a mode, one turn of the decoding loop, the
value of an encoded word. -/

namespace Sys2Proof

theorem Mode.digit_le (m : Mode) : m.digit ≤ 2 := by cases m <;> decide

@[simp] theorem Mode.ofDigit_digit (m : Mode) : Mode.ofDigit m.digit = some m := by cases m <;> rfl

theorem Mode.ofDigit_eq_some {d : Nat} {m : Mode} (h : Mode.ofDigit d = some m) : d = m.digit := by
  match d, h with
  | 0, h => cases h; rfl
  | 1, h => cases h; rfl
  | 2, h => cases h; rfl
  | _ + 3, h => cases h

theorem Mode.ofDigit_eq_none {d : Nat} : Mode.ofDigit d = none ↔ 3 ≤ d := by
  match d with
  | 0 | 1 | 2 => decide
  | d + 3 => simp [Mode.ofDigit]

/-- One turn of the loop succeeds exactly on a legal lowest digit, and leaves the other digits (R70). -/
theorem takeMode_eq_ok {rest : Nat} {p : Mode × Nat} :
    takeMode rest = .ok p ↔ rest % 10 = p.1.digit ∧ p.2 = rest / 10 := by
  obtain ⟨m, r⟩ := p
  constructor
  · intro h
    unfold takeMode at h
    split at h
    · next m' hm => cases h; exact ⟨Mode.ofDigit_eq_some hm, rfl⟩
    · cases h
  · rintro ⟨h, rfl⟩
    simp only at h
    simp [takeMode, h]

/-- One turn of the loop fails exactly on a digit above 2 (R56). -/
theorem takeMode_eq_error {rest : Nat} {e : DecodeError} (h : takeMode rest = .error e) :
    3 ≤ rest % 10 ∧ e = .illegalMode := by
  unfold takeMode at h
  split at h
  · cases h
  · next hm => cases h; exact ⟨Mode.ofDigit_eq_none.mp hm, rfl⟩

theorem noSurplus_eq_ok {rest : Nat} {i j : Instr} : noSurplus rest i = .ok j ↔ rest = 0 ∧ i = j := by
  unfold noSurplus
  split <;> simp_all

/-- A decoded one-operand word: its digit, and nothing above it. -/
theorem decode1_eq_ok {f : Mode → Instr} {rest : Nat} {i : Instr} :
    decode1 f rest = .ok i ↔ ∃ m1, rest = m1.digit ∧ i = f m1 := by
  simp only [decode1, bind, Except.bind]
  constructor
  · intro h
    cases h1 : takeMode rest with
    | error e => simp [h1] at h
    | ok p =>
      obtain ⟨m1, r1⟩ := p
      simp only [h1, noSurplus_eq_ok] at h
      have d1 := takeMode_eq_ok.mp h1
      exact ⟨m1, by simp only at d1; omega, h.2.symm⟩
  · rintro ⟨m1, rfl, rfl⟩
    have h1 : takeMode m1.digit = .ok (m1, 0) := takeMode_eq_ok.mpr (by have := m1.digit_le; simp only; omega)
    simp [h1, noSurplus]

/-- A decoded two-operand word. -/
theorem decode2_eq_ok {f : Mode → Mode → Instr} {rest : Nat} {i : Instr} :
    decode2 f rest = .ok i ↔ ∃ m1 m2, rest = m1.digit + 10 * m2.digit ∧ i = f m1 m2 := by
  simp only [decode2, bind, Except.bind]
  constructor
  · intro h
    cases h1 : takeMode rest with
    | error e => simp [h1] at h
    | ok p =>
    obtain ⟨m1, r1⟩ := p
    simp only [h1] at h
    cases h2 : takeMode r1 with
    | error e => simp [h2] at h
    | ok p =>
      obtain ⟨m2, r2⟩ := p
      simp only [h2, noSurplus_eq_ok] at h
      have d1 := takeMode_eq_ok.mp h1
      have d2 := takeMode_eq_ok.mp h2
      exact ⟨m1, m2, by simp only at d1 d2; omega, h.2.symm⟩
  · rintro ⟨m1, m2, rfl, rfl⟩
    have b1 := m1.digit_le
    have b2 := m2.digit_le
    have h1 : takeMode (m1.digit + 10 * m2.digit) = .ok (m1, m2.digit) :=
      takeMode_eq_ok.mpr (by simp only; omega)
    have h2 : takeMode m2.digit = .ok (m2, 0) := takeMode_eq_ok.mpr (by simp only; omega)
    simp [h1, h2, noSurplus]

/-- A decoded three-operand word. -/
theorem decode3_eq_ok {f : Mode → Mode → Mode → Instr} {rest : Nat} {i : Instr} :
    decode3 f rest = .ok i ↔
      ∃ m1 m2 m3, rest = m1.digit + 10 * m2.digit + 100 * m3.digit ∧ i = f m1 m2 m3 := by
  simp only [decode3, bind, Except.bind]
  constructor
  · intro h
    cases h1 : takeMode rest with
    | error e => simp [h1] at h
    | ok p =>
    obtain ⟨m1, r1⟩ := p
    simp only [h1] at h
    cases h2 : takeMode r1 with
    | error e => simp [h2] at h
    | ok p =>
    obtain ⟨m2, r2⟩ := p
    simp only [h2] at h
    cases h3 : takeMode r2 with
    | error e => simp [h3] at h
    | ok p =>
      obtain ⟨m3, r3⟩ := p
      simp only [h3, noSurplus_eq_ok] at h
      have d1 := takeMode_eq_ok.mp h1
      have d2 := takeMode_eq_ok.mp h2
      have d3 := takeMode_eq_ok.mp h3
      exact ⟨m1, m2, m3, by simp only at d1 d2 d3; omega, h.2.symm⟩
  · rintro ⟨m1, m2, m3, rfl, rfl⟩
    have b1 := m1.digit_le
    have b2 := m2.digit_le
    have b3 := m3.digit_le
    have h1 : takeMode (m1.digit + 10 * m2.digit + 100 * m3.digit) = .ok (m1, m2.digit + 10 * m3.digit) :=
      takeMode_eq_ok.mpr (by simp only; omega)
    have h2 : takeMode (m2.digit + 10 * m3.digit) = .ok (m2, m3.digit) := takeMode_eq_ok.mpr (by simp only; omega)
    have h3 : takeMode m3.digit = .ok (m3, 0) := takeMode_eq_ok.mpr (by simp only; omega)
    simp [h1, h2, h3, noSurplus]

/-- The number the modes of an instruction form has at most three digits, each at most 2. -/
theorem modeDigits_modes_le (i : Instr) : modeDigits i.modes ≤ 222 := by
  have b := Mode.digit_le
  cases i <;> simp only [Instr.modes, modeDigits] <;>
    first
      | (next m1 m2 m3 => have := b m1; have := b m2; have := b m3; omega)
      | (next m1 m2 => have := b m1; have := b m2; omega)
      | (next m1 => have := b m1; omega)
      | omega

theorem Instr.opcode_lt (i : Instr) : i.opcode < 100 := by cases i <;> simp [Instr.opcode]

/-- The value of an encoded word (R51): no bit is cut off. -/
theorem encode_toNat (i : Instr) : (encode i).toNat = i.opcode + 100 * modeDigits i.modes := by
  have h1 := modeDigits_modes_le i
  have h2 := i.opcode_lt
  rw [encode, BitVec.toNat_ofNat, Nat.mod_eq_of_lt (by omega)]

/-- A word below 2^63 is not negative. -/
theorem toInt_nonneg_of_toNat_lt {w : Word} (h : w.toNat < 2 ^ 63) : w.toInt = w.toNat := by
  rw [BitVec.toInt_eq_toNat_cond, if_pos (by omega)]

theorem toNat_of_toInt_nonneg {w : Word} (h : 0 ≤ w.toInt) : (w.toNat : Int) = w.toInt ∧ w.toNat < 2 ^ 63 := by
  rw [BitVec.toInt_eq_toNat_cond] at *
  have := w.isLt
  split at h <;> constructor <;> (try split) <;> omega

theorem encode_toInt_nonneg (i : Instr) : 0 ≤ (encode i).toInt := by
  have h1 := modeDigits_modes_le i
  have h2 := i.opcode_lt
  have h3 := encode_toNat i
  rw [toInt_nonneg_of_toNat_lt (by omega)]
  omega

end Sys2Proof
end

