-- ==== Sys2Proof/Laws/State.lean ====
section
/-! SUPPORT. One lemma per field of State and per update of it, each true by rfl, so that no proof unfolds a record
update. -/

namespace Sys2Proof.Machine

variable (s : State)

@[simp] theorem State.setIp_cfg (v : Word) : (s.setIp v).cfg = s.cfg := rfl
@[simp] theorem State.setIp_tape (v : Word) : (s.setIp v).tape = s.tape := rfl
@[simp] theorem State.setIp_len (v : Word) : (s.setIp v).len = s.len := rfl
@[simp] theorem State.setIp_ip (v : Word) : (s.setIp v).ip = v := rfl
@[simp] theorem State.setIp_rb (v : Word) : (s.setIp v).rb = s.rb := rfl
@[simp] theorem State.setIp_inq (v : Word) : (s.setIp v).inq = s.inq := rfl
@[simp] theorem State.setIp_status (v : Word) : (s.setIp v).status = s.status := rfl
@[simp] theorem State.setIp_fault (v : Word) : (s.setIp v).fault = s.fault := rfl
@[simp] theorem State.setIp_out (v : Word) : (s.setIp v).out = s.out := rfl

@[simp] theorem State.setRb_cfg (v : Word) : (s.setRb v).cfg = s.cfg := rfl
@[simp] theorem State.setRb_tape (v : Word) : (s.setRb v).tape = s.tape := rfl
@[simp] theorem State.setRb_len (v : Word) : (s.setRb v).len = s.len := rfl
@[simp] theorem State.setRb_ip (v : Word) : (s.setRb v).ip = s.ip := rfl
@[simp] theorem State.setRb_rb (v : Word) : (s.setRb v).rb = v := rfl
@[simp] theorem State.setRb_inq (v : Word) : (s.setRb v).inq = s.inq := rfl
@[simp] theorem State.setRb_status (v : Word) : (s.setRb v).status = s.status := rfl
@[simp] theorem State.setRb_fault (v : Word) : (s.setRb v).fault = s.fault := rfl
@[simp] theorem State.setRb_out (v : Word) : (s.setRb v).out = s.out := rfl

@[simp] theorem State.setInq_cfg (q : List Word) : (s.setInq q).cfg = s.cfg := rfl
@[simp] theorem State.setInq_tape (q : List Word) : (s.setInq q).tape = s.tape := rfl
@[simp] theorem State.setInq_len (q : List Word) : (s.setInq q).len = s.len := rfl
@[simp] theorem State.setInq_ip (q : List Word) : (s.setInq q).ip = s.ip := rfl
@[simp] theorem State.setInq_rb (q : List Word) : (s.setInq q).rb = s.rb := rfl
@[simp] theorem State.setInq_inq (q : List Word) : (s.setInq q).inq = q := rfl
@[simp] theorem State.setInq_status (q : List Word) : (s.setInq q).status = s.status := rfl
@[simp] theorem State.setInq_fault (q : List Word) : (s.setInq q).fault = s.fault := rfl
@[simp] theorem State.setInq_out (q : List Word) : (s.setInq q).out = s.out := rfl

@[simp] theorem State.setStatus_cfg (r : RunState) : (s.setStatus r).cfg = s.cfg := rfl
@[simp] theorem State.setStatus_tape (r : RunState) : (s.setStatus r).tape = s.tape := rfl
@[simp] theorem State.setStatus_len (r : RunState) : (s.setStatus r).len = s.len := rfl
@[simp] theorem State.setStatus_ip (r : RunState) : (s.setStatus r).ip = s.ip := rfl
@[simp] theorem State.setStatus_rb (r : RunState) : (s.setStatus r).rb = s.rb := rfl
@[simp] theorem State.setStatus_inq (r : RunState) : (s.setStatus r).inq = s.inq := rfl
@[simp] theorem State.setStatus_status (r : RunState) : (s.setStatus r).status = r := rfl
@[simp] theorem State.setStatus_fault (r : RunState) : (s.setStatus r).fault = s.fault := rfl
@[simp] theorem State.setStatus_out (r : RunState) : (s.setStatus r).out = s.out := rfl

@[simp] theorem State.setOut_cfg (v : Word) : (s.setOut v).cfg = s.cfg := rfl
@[simp] theorem State.setOut_tape (v : Word) : (s.setOut v).tape = s.tape := rfl
@[simp] theorem State.setOut_len (v : Word) : (s.setOut v).len = s.len := rfl
@[simp] theorem State.setOut_ip (v : Word) : (s.setOut v).ip = s.ip := rfl
@[simp] theorem State.setOut_rb (v : Word) : (s.setOut v).rb = s.rb := rfl
@[simp] theorem State.setOut_inq (v : Word) : (s.setOut v).inq = s.inq := rfl
@[simp] theorem State.setOut_status (v : Word) : (s.setOut v).status = s.status := rfl
@[simp] theorem State.setOut_fault (v : Word) : (s.setOut v).fault = s.fault := rfl
@[simp] theorem State.setOut_out (v : Word) : (s.setOut v).out = v := rfl

@[simp] theorem State.takeFault_cfg (k : FaultKind) : (s.takeFault k).cfg = s.cfg := rfl
@[simp] theorem State.takeFault_tape (k : FaultKind) : (s.takeFault k).tape = s.tape := rfl
@[simp] theorem State.takeFault_len (k : FaultKind) : (s.takeFault k).len = s.len := rfl
@[simp] theorem State.takeFault_ip (k : FaultKind) : (s.takeFault k).ip = s.ip := rfl
@[simp] theorem State.takeFault_rb (k : FaultKind) : (s.takeFault k).rb = s.rb := rfl
@[simp] theorem State.takeFault_inq (k : FaultKind) : (s.takeFault k).inq = s.inq := rfl
@[simp] theorem State.takeFault_status (k : FaultKind) : (s.takeFault k).status = .faulted := rfl
@[simp] theorem State.takeFault_fault (k : FaultKind) : (s.takeFault k).fault = some k := rfl
@[simp] theorem State.takeFault_out (k : FaultKind) : (s.takeFault k).out = s.out := rfl

@[simp] theorem State.memWrite_cfg (x : Nat) (v : Word) : (s.memWrite x v).cfg = s.cfg := rfl
@[simp] theorem State.memWrite_tape (x : Nat) (v : Word) : (s.memWrite x v).tape = s.tape.write x v := rfl
@[simp] theorem State.memWrite_len (x : Nat) (v : Word) : (s.memWrite x v).len = max s.len (x + 1) := rfl
@[simp] theorem State.memWrite_ip (x : Nat) (v : Word) : (s.memWrite x v).ip = s.ip := rfl
@[simp] theorem State.memWrite_rb (x : Nat) (v : Word) : (s.memWrite x v).rb = s.rb := rfl
@[simp] theorem State.memWrite_inq (x : Nat) (v : Word) : (s.memWrite x v).inq = s.inq := rfl
@[simp] theorem State.memWrite_status (x : Nat) (v : Word) : (s.memWrite x v).status = s.status := rfl
@[simp] theorem State.memWrite_fault (x : Nat) (v : Word) : (s.memWrite x v).fault = s.fault := rfl
@[simp] theorem State.memWrite_out (x : Nat) (v : Word) : (s.memWrite x v).out = s.out := rfl

@[simp] theorem State.advance_cfg (n : Nat) : (s.advance n).cfg = s.cfg := rfl
@[simp] theorem State.advance_tape (n : Nat) : (s.advance n).tape = s.tape := rfl
@[simp] theorem State.advance_len (n : Nat) : (s.advance n).len = s.len := rfl
@[simp] theorem State.advance_ip (n : Nat) : (s.advance n).ip = BitVec.ofInt 64 (s.ip.toInt + n) := rfl
@[simp] theorem State.advance_rb (n : Nat) : (s.advance n).rb = s.rb := rfl
@[simp] theorem State.advance_inq (n : Nat) : (s.advance n).inq = s.inq := rfl
@[simp] theorem State.advance_status (n : Nat) : (s.advance n).status = s.status := rfl
@[simp] theorem State.advance_fault (n : Nat) : (s.advance n).fault = s.fault := rfl
@[simp] theorem State.advance_out (n : Nat) : (s.advance n).out = s.out := rfl

@[simp] theorem resetImage_cfg (cfg : Config) (image : List Word) : (resetImage cfg image).cfg = cfg := rfl
@[simp] theorem resetImage_tape (cfg : Config) (image : List Word) : (resetImage cfg image).tape = Memory.ofCells 0 image := rfl
@[simp] theorem resetImage_len (cfg : Config) (image : List Word) : (resetImage cfg image).len = image.length := rfl
@[simp] theorem resetImage_ip (cfg : Config) (image : List Word) : (resetImage cfg image).ip = 0#64 := rfl
@[simp] theorem resetImage_rb (cfg : Config) (image : List Word) : (resetImage cfg image).rb = 0#64 := rfl
@[simp] theorem resetImage_inq (cfg : Config) (image : List Word) : (resetImage cfg image).inq = [] := rfl
@[simp] theorem resetImage_status (cfg : Config) (image : List Word) : (resetImage cfg image).status = .running := rfl
@[simp] theorem resetImage_fault (cfg : Config) (image : List Word) : (resetImage cfg image).fault = none := rfl
@[simp] theorem resetImage_out (cfg : Config) (image : List Word) : (resetImage cfg image).out = 0#64 := rfl

/-- The cell view after an update that leaves the tape alone. -/
theorem State.cell_congr {s t : State} (htape : t.tape = s.tape) (hlen : t.len = s.len) (x : Nat) :
    t.cell x = s.cell x := by
  simp [State.cell, htape, hlen]

@[simp] theorem State.cell_setIp (v : Word) (x : Nat) : (s.setIp v).cell x = s.cell x := rfl
@[simp] theorem State.cell_setRb (v : Word) (x : Nat) : (s.setRb v).cell x = s.cell x := rfl
@[simp] theorem State.cell_setInq (q : List Word) (x : Nat) : (s.setInq q).cell x = s.cell x := rfl
@[simp] theorem State.cell_setStatus (r : RunState) (x : Nat) : (s.setStatus r).cell x = s.cell x := rfl
@[simp] theorem State.cell_setOut (v : Word) (x : Nat) : (s.setOut v).cell x = s.cell x := rfl
@[simp] theorem State.cell_takeFault (k : FaultKind) (x : Nat) : (s.takeFault k).cell x = s.cell x := rfl
@[simp] theorem State.cell_advance (n : Nat) (x : Nat) : (s.advance n).cell x = s.cell x := rfl

/-- `State.reset` is `RESET` of the empty image with the standard parameters. -/
theorem State.reset_eq : State.reset = resetImage Config.standard [] := rfl

end Sys2Proof.Machine
end

