-- ==== Sys2Proof/Laws/Memory.lean ====
section
/-! SUPPORT. The laws of the tape: read after write, every other cell kept, and the canonical form kept by every memory
operation (spec/20_memory.md R34, R45). -/

namespace Sys2Proof.Machine

/-- A cell below or beside every listed one reads 0. -/
theorem Memory.read_eq_zero {m : Memory} {x : Nat} (h : ∀ p ∈ m, p.1 ≠ x) : m.read x = 0#64 := by
  induction m with
  | nil => rfl
  | cons p m ih =>
    obtain ⟨a, w⟩ := p
    have ha : x ≠ a := fun e => h (a, w) (by simp) e.symm
    simp only [Memory.read, if_neg ha]
    exact ih fun q hq => h q (by simp [hq])

theorem Memory.wf_tail {p : Nat × Word} {m : Memory} (h : Memory.wf (p :: m)) : Memory.wf m :=
  ⟨(List.pairwise_cons.mp h.1).2, fun q hq => h.2 q (by simp [hq])⟩

theorem Memory.head_lt {p : Nat × Word} {m : Memory} (h : Memory.wf (p :: m)) : ∀ q ∈ m, p.1 < q.1 :=
  (List.pairwise_cons.mp h.1).1

/-- A cell strictly below the head of a canonical tail reads 0. -/
theorem Memory.read_tail_eq_zero {a x : Nat} {w : Word} {m : Memory} (h : Memory.wf ((a, w) :: m)) (hx : x ≤ a) :
    m.read x = 0#64 :=
  Memory.read_eq_zero fun q hq => by have := Memory.head_lt h q hq; simp at this; omega

/-- Read after write of the same cell. -/
theorem Memory.read_write_same {m : Memory} (h : m.wf) (x : Nat) (v : Word) : (m.write x v).read x = v := by
  induction m with
  | nil => by_cases hv : v = 0#64 <;> simp [Memory.write, Memory.read, hv]
  | cons p m ih =>
    obtain ⟨a, w⟩ := p
    rcases Nat.lt_trichotomy x a with hlt | heq | hgt
    · by_cases hv : v = 0#64
      · have h0 := Memory.read_tail_eq_zero h (Nat.le_of_lt hlt)
        simp [Memory.write, hlt, hv, Memory.read, Nat.ne_of_lt hlt, h0]
      · simp [Memory.write, hlt, hv, Memory.read]
    · subst heq
      by_cases hv : v = 0#64
      · simp [Memory.write, hv, Memory.read_tail_eq_zero h (Nat.le_refl x)]
      · simp [Memory.write, hv, Memory.read]
    · have h1 : ¬ x < a := by omega
      have h2 : x ≠ a := by omega
      simp [Memory.write, h1, h2, Memory.read, ih (Memory.wf_tail h)]

/-- A write leaves every other cell alone. -/
theorem Memory.read_write_other (m : Memory) {x y : Nat} (v : Word) (hy : y ≠ x) :
    (m.write x v).read y = m.read y := by
  induction m with
  | nil => by_cases hv : v = 0#64 <;> simp [Memory.write, Memory.read, hv, hy]
  | cons p m ih =>
    obtain ⟨a, w⟩ := p
    by_cases hlt : x < a
    · by_cases hv : v = 0#64 <;> simp [Memory.write, hlt, hv, Memory.read, hy]
    · by_cases heq : x = a
      · subst heq
        by_cases hv : v = 0#64 <;> simp [Memory.write, hv, Memory.read, hy]
      · simp [Memory.write, hlt, heq, Memory.read, ih]

/-- Every entry of the written tape is the stored one or an old one. -/
theorem Memory.mem_write {m : Memory} {x : Nat} {v : Word} {q : Nat × Word} (h : q ∈ m.write x v) :
    (q = (x, v) ∧ v ≠ 0#64) ∨ q ∈ m := by
  induction m with
  | nil =>
    by_cases hv : v = 0#64
    · simp [Memory.write, hv] at h
    · simp [Memory.write, hv] at h; exact .inl ⟨h, hv⟩
  | cons p m ih =>
    obtain ⟨a, w⟩ := p
    by_cases hlt : x < a
    · by_cases hv : v = 0#64
      · simp only [Memory.write, if_pos hlt, if_pos hv] at h; exact .inr h
      · simp only [Memory.write, if_pos hlt, if_neg hv, List.mem_cons] at h
        rcases h with h | h
        · exact .inl ⟨h, hv⟩
        · exact .inr (by simpa using h)
    · by_cases heq : x = a
      · by_cases hv : v = 0#64
        · simp only [Memory.write, if_neg hlt, if_pos heq, if_pos hv] at h; exact .inr (by simp [h])
        · simp only [Memory.write, if_neg hlt, if_pos heq, if_neg hv, List.mem_cons] at h
          rcases h with h | h
          · exact .inl ⟨h, hv⟩
          · exact .inr (by simp [h])
      · simp only [Memory.write, if_neg hlt, if_neg heq, List.mem_cons] at h
        rcases h with h | h
        · exact .inr (by simp [h])
        · rcases ih h with h | h
          · exact .inl h
          · exact .inr (by simp [h])

/-- A write keeps the canonical form. -/
theorem Memory.write_wf {m : Memory} (h : m.wf) (x : Nat) (v : Word) : (m.write x v).wf := by
  refine ⟨?_, fun q hq => ?_⟩
  · induction m with
    | nil => by_cases hv : v = 0#64 <;> simp [Memory.write, hv]
    | cons p m ih =>
      obtain ⟨a, w⟩ := p
      have hm := Memory.head_lt h
      have htail := (Memory.wf_tail h).1
      by_cases hlt : x < a
      · by_cases hv : v = 0#64
        · simp only [Memory.write, if_pos hlt, if_pos hv]; exact h.1
        · simp only [Memory.write, if_pos hlt, if_neg hv]
          refine List.pairwise_cons.mpr ⟨fun q hq => ?_, h.1⟩
          rcases List.mem_cons.mp hq with rfl | hq
          · exact hlt
          · exact Nat.lt_trans hlt (hm q hq)
      · by_cases heq : x = a
        · subst heq
          by_cases hv : v = 0#64
          · simp only [Memory.write, if_neg hlt, if_pos hv]; exact htail
          · simp only [Memory.write, if_neg hlt, if_neg hv]
            exact List.pairwise_cons.mpr ⟨hm, htail⟩
        · simp only [Memory.write, if_neg hlt, if_neg heq]
          refine List.pairwise_cons.mpr ⟨fun q hq => ?_, ih (Memory.wf_tail h)⟩
          rcases Memory.mem_write hq with ⟨rfl, -⟩ | hq
          · show a < x; omega
          · exact hm q hq
  · rcases Memory.mem_write hq with ⟨rfl, hv⟩ | hq
    · exact hv
    · exact h.2 q hq

/-- A write keeps every listed cell below a bound that is above the written one. -/
theorem Memory.write_below {m : Memory} {n x : Nat} (h : m.below n) (hx : x < n) (v : Word) :
    (m.write x v).below n := fun q hq => by
  rcases Memory.mem_write hq with ⟨rfl, -⟩ | hq
  · exact hx
  · exact h q hq

theorem Memory.below_mono {m : Memory} {n k : Nat} (h : m.below n) (hk : n ≤ k) : m.below k := fun q hq =>
  Nat.lt_of_lt_of_le (h q hq) hk

/-- Beyond the bound a tape reads 0. -/
theorem Memory.read_beyond {m : Memory} {n x : Nat} (h : m.below n) (hx : n ≤ x) : m.read x = 0#64 :=
  Memory.read_eq_zero fun q hq => by have := h q hq; omega

/-- The cells of an image lie between their first index and its end. -/
theorem Memory.mem_ofCells {i : Nat} {vs : List Word} {q : Nat × Word} (h : q ∈ Memory.ofCells i vs) :
    i ≤ q.1 ∧ q.1 < i + vs.length ∧ q.2 ≠ 0#64 := by
  induction vs generalizing i with
  | nil => simp [Memory.ofCells] at h
  | cons v vs ih =>
    have later : q ∈ Memory.ofCells (i + 1) vs → i ≤ q.1 ∧ q.1 < i + (v :: vs).length ∧ q.2 ≠ 0#64 := fun h => by
      obtain ⟨h1, h2, h3⟩ := ih h
      exact ⟨by omega, by simp only [List.length_cons]; omega, h3⟩
    by_cases hv : v = 0#64
    · simp only [Memory.ofCells, if_pos hv] at h; exact later h
    · simp only [Memory.ofCells, if_neg hv, List.mem_cons] at h
      rcases h with rfl | h
      · exact ⟨Nat.le_refl i, by simp, hv⟩
      · exact later h

/-- The tape of an image is in canonical form. -/
theorem Memory.ofCells_wf (i : Nat) (vs : List Word) : (Memory.ofCells i vs).wf := by
  refine ⟨?_, fun q hq => (Memory.mem_ofCells hq).2.2⟩
  induction vs generalizing i with
  | nil => simp [Memory.ofCells]
  | cons v vs ih =>
    by_cases hv : v = 0#64
    · simp only [Memory.ofCells, if_pos hv]; exact ih (i + 1)
    · simp only [Memory.ofCells, if_neg hv]
      exact List.pairwise_cons.mpr ⟨fun q hq => (Memory.mem_ofCells hq).1, ih (i + 1)⟩

theorem Memory.ofCells_below (vs : List Word) : (Memory.ofCells 0 vs).below vs.length := fun q hq => by
  have := (Memory.mem_ofCells hq).2.1; omega

/-- The tape of an image holds its values in order. -/
theorem Memory.read_ofCells (i k : Nat) (vs : List Word) : (Memory.ofCells i vs).read (i + k) = vs.getD k 0#64 := by
  induction vs generalizing i k with
  | nil => simp [Memory.ofCells, Memory.read]
  | cons v vs ih =>
    cases k with
    | zero =>
      by_cases hv : v = 0#64
      · simp only [Memory.ofCells, Nat.add_zero, List.getD_cons_zero, hv]
        exact Memory.read_eq_zero fun q hq => by have := (Memory.mem_ofCells hq).1; omega
      · simp [Memory.ofCells, if_neg hv, Memory.read]
    | succ k =>
      have hk : i + (k + 1) = i + 1 + k := by omega
      by_cases hv : v = 0#64
      · simp only [Memory.ofCells, if_pos hv, List.getD_cons_succ, hk, ih]
      · have hne : i + 1 + k ≠ i := by omega
        simp only [Memory.ofCells, if_neg hv, List.getD_cons_succ, hk, Memory.read, if_neg hne, ih]

end Sys2Proof.Machine
end

