-- ==== Sys2Proof/Laws/Ops.lean ====
section
/-! SUPPORT. One lemma per shared operation that says everything it can answer, for the proofs to cite instead of
unfolding it: fetch, data read, write address, operand resolution, range check, commit and settle. -/

namespace Sys2Proof.Machine

variable {s t : State}

/-! ## Words and integers -/

theorem toInt_bounds (w : Word) : minInt64 ≤ w.toInt ∧ w.toInt ≤ maxInt64 := by
  have h1 := BitVec.le_toInt w
  have h2 := BitVec.toInt_lt (x := w)
  simp [minInt64, maxInt64] at *
  omega

/-- An integer that fits is the value of its word (R92). -/
theorem toInt_ofInt_of_fits {z : Int} (h : Fits64 z) : (BitVec.ofInt 64 z).toInt = z := by
  simp only [Fits64, minInt64, maxInt64] at h
  rw [BitVec.toInt_ofInt, Int.bmod_def]
  split <;> omega

theorem word_eq_of_toInt {v w : Word} (h : v.toInt = w.toInt) : v = w := BitVec.eq_of_toInt_eq h

/-- `narrow` answers the word of the exact result where it fits, and the overflow fault where it does not (R92). -/
theorem narrow_of_fits {z : Int} (h : Fits64 z) : narrow z = .ok (BitVec.ofInt 64 z) := if_pos h

theorem narrow_of_not_fits {z : Int} (h : ¬ Fits64 z) : narrow z = .error .arithmeticOverflow := if_neg h

theorem narrow_eq_ok {z : Int} {r : Word} (h : narrow z = .ok r) : Fits64 z ∧ r.toInt = z := by
  by_cases hz : Fits64 z
  · rw [narrow_of_fits hz] at h
    cases h
    exact ⟨hz, toInt_ofInt_of_fits hz⟩
  · rw [narrow_of_not_fits hz] at h
    cases h

theorem narrow_eq_error {z : Int} {k : FaultKind} (h : narrow z = .error k) :
    ¬ Fits64 z ∧ k = .arithmeticOverflow := by
  by_cases hz : Fits64 z
  · rw [narrow_of_fits hz] at h; cases h
  · rw [narrow_of_not_fits hz] at h; cases h; exact ⟨hz, rfl⟩

/-! ## Fetch -/

/-- A fetch inside `0 .. LEN-1` (R32). -/
theorem fetchCell_of_inside {k : Nat} (h0 : 0 ≤ s.ip.toInt + k) (h1 : s.ip.toInt + k < s.len) :
    fetchCell s k = .ok (s.tape.read (s.ip.toInt + k).toNat) :=
  if_neg (by omega)

/-- A fetch outside `0 .. LEN-1` (R32). -/
theorem fetchCell_of_outside {k : Nat} (h : s.ip.toInt + k < 0 ∨ (s.len : Int) ≤ s.ip.toInt + k) :
    fetchCell s k = .error .addressFault :=
  if_pos h

theorem fetchCell_eq_ok {k : Nat} {c : Word} (h : fetchCell s k = .ok c) :
    0 ≤ s.ip.toInt + k ∧ s.ip.toInt + k < s.len ∧ c = s.tape.read (s.ip.toInt + k).toNat := by
  unfold fetchCell at h
  split at h
  · cases h
  · cases h; refine ⟨by omega, by omega, rfl⟩

theorem fetchCell_eq_error {k : Nat} {e : FaultKind} (h : fetchCell s k = .error e) :
    e = .addressFault ∧ (s.ip.toInt + k < 0 ∨ (s.len : Int) ≤ s.ip.toInt + k) := by
  unfold fetchCell at h
  split at h
  · next hc => cases h; exact ⟨rfl, hc⟩
  · cases h

/-- A fetch reads nothing but `IP`, `LEN` and the tape. -/
theorem fetchCell_congr (hip : t.ip = s.ip) (hlen : t.len = s.len) (htape : t.tape = s.tape) (k : Nat) :
    fetchCell t k = fetchCell s k := by
  simp [fetchCell, hip, hlen, htape]

/-! ## Data reads and write addresses -/

theorem memRead_of_address {z : Int} (h0 : 0 ≤ z) (h1 : z ≤ maxInt64) : memRead s z = .ok (s.cell z.toNat) :=
  if_neg (by omega)

theorem memRead_of_no_address {z : Int} (h : z < 0 ∨ maxInt64 < z) : memRead s z = .error .addressFault :=
  if_pos h

theorem memRead_eq_error {z : Int} {k : FaultKind} (h : memRead s z = .error k) : k = .addressFault := by
  unfold memRead at h
  split at h <;> cases h
  rfl

theorem memRead_congr (hlen : t.len = s.len) (htape : t.tape = s.tape) (z : Int) : memRead t z = memRead s z := by
  simp [memRead, State.cell, hlen, htape]

/-- The three answers of the write checks, in their order (R72). -/
theorem writeAddress_of_address {z : Int} (h0 : 0 ≤ z) (h1 : z ≤ maxInt64) (hl : z < s.cfg.tapeLimit) :
    writeAddress s z = .ok z.toNat := by
  unfold writeAddress
  rw [if_neg (by omega), if_neg (by omega)]

theorem writeAddress_of_no_address {z : Int} (h : z < 0 ∨ maxInt64 < z) :
    writeAddress s z = .error .addressFault := if_pos h

theorem writeAddress_of_beyond_limit {z : Int} (h0 : 0 ≤ z) (h1 : z ≤ maxInt64) (hl : (s.cfg.tapeLimit : Int) ≤ z) :
    writeAddress s z = .error .capacityFault := by
  unfold writeAddress
  rw [if_neg (by omega), if_pos (by omega)]

theorem writeAddress_eq_ok {z : Int} {x : Nat} (h : writeAddress s z = .ok x) :
    (x : Int) = z ∧ z ≤ maxInt64 ∧ x < s.cfg.tapeLimit := by
  unfold writeAddress at h
  split at h
  · cases h
  · split at h
    · cases h
    · cases h; omega

theorem writeAddress_eq_error {z : Int} {k : FaultKind} (h : writeAddress s z = .error k) :
    k = .addressFault ∨ k = .capacityFault := by
  unfold writeAddress at h
  split at h
  · cases h; exact .inl rfl
  · split at h
    · cases h; exact .inr rfl
    · cases h

/-! ## Operand resolution -/

theorem resolveRead_of_cell {k : Nat} {c : Word} (h : fetchCell s k = .ok c) (m : Mode) :
    resolveRead s k m = match m with
      | .position => memRead s c.toInt
      | .immediate => .ok c
      | .relative => memRead s (c.toInt + s.rb.toInt) := by
  cases m <;> simp only [resolveRead, h, bind, Except.bind]

theorem resolveWriteAddr_of_cell {k : Nat} {c : Word} (h : fetchCell s k = .ok c) (m : Mode) :
    resolveWriteAddr s k m = match m with
      | .position => writeAddress s c.toInt
      | .immediate => .error .invalidWriteTarget
      | .relative => writeAddress s (c.toInt + s.rb.toInt) := by
  cases m <;> simp only [resolveWriteAddr, h, bind, Except.bind]

theorem resolveRead_of_no_cell {k : Nat} {e : FaultKind} (h : fetchCell s k = .error e) (m : Mode) :
    resolveRead s k m = .error e := by
  simp only [resolveRead, h, bind, Except.bind]

theorem resolveWriteAddr_of_no_cell {k : Nat} {e : FaultKind} (h : fetchCell s k = .error e) (m : Mode) :
    resolveWriteAddr s k m = .error e := by
  simp only [resolveWriteAddr, h, bind, Except.bind]

/-- A read operand that resolves has its cell inside the tape. -/
theorem resolveRead_eq_ok {k : Nat} {m : Mode} {a : Word} (h : resolveRead s k m = .ok a) :
    0 ≤ s.ip.toInt + k ∧ s.ip.toInt + k < s.len := by
  cases hc : fetchCell s k with
  | error e => rw [resolveRead_of_no_cell hc] at h; cases h
  | ok c => have := fetchCell_eq_ok hc; exact ⟨this.1, this.2.1⟩

/-- The only fault a read operand can raise (R71). -/
theorem resolveRead_eq_error {k : Nat} {m : Mode} {e : FaultKind} (h : resolveRead s k m = .error e) :
    e = .addressFault := by
  cases hc : fetchCell s k with
  | error e' => rw [resolveRead_of_no_cell hc] at h; cases h; exact (fetchCell_eq_error hc).1
  | ok c =>
    rw [resolveRead_of_cell hc] at h
    cases m with
    | position => exact memRead_eq_error h
    | immediate => cases h
    | relative => exact memRead_eq_error h

/-- A write operand that resolves has its cell inside the tape and an address below `TAPE_LIMIT`. -/
theorem resolveWriteAddr_eq_ok {k : Nat} {m : Mode} {x : Nat} (h : resolveWriteAddr s k m = .ok x) :
    0 ≤ s.ip.toInt + k ∧ s.ip.toInt + k < s.len ∧ x < s.cfg.tapeLimit ∧ m ≠ .immediate := by
  cases hc : fetchCell s k with
  | error e => rw [resolveWriteAddr_of_no_cell hc] at h; cases h
  | ok c =>
    have hin := fetchCell_eq_ok hc
    rw [resolveWriteAddr_of_cell hc] at h
    cases m with
    | position => exact ⟨hin.1, hin.2.1, (writeAddress_eq_ok h).2.2, by decide⟩
    | immediate => cases h
    | relative => exact ⟨hin.1, hin.2.1, (writeAddress_eq_ok h).2.2, by decide⟩

/-- The faults a write operand can raise (R72). -/
theorem resolveWriteAddr_eq_error {k : Nat} {m : Mode} {e : FaultKind} (h : resolveWriteAddr s k m = .error e) :
    e = .addressFault ∨ e = .invalidWriteTarget ∨ e = .capacityFault := by
  cases hc : fetchCell s k with
  | error e' => rw [resolveWriteAddr_of_no_cell hc] at h; cases h; exact .inl (fetchCell_eq_error hc).1
  | ok c =>
    rw [resolveWriteAddr_of_cell hc] at h
    cases m with
    | position => rcases writeAddress_eq_error h with h | h <;> simp [h]
    | immediate => cases h; simp
    | relative => rcases writeAddress_eq_error h with h | h <;> simp [h]

/-- A read operand depends on nothing but `IP`, `LEN`, the tape and `RB`. -/
theorem resolveRead_congr (hip : t.ip = s.ip) (hlen : t.len = s.len) (htape : t.tape = s.tape) (hrb : t.rb = s.rb)
    (k : Nat) (m : Mode) : resolveRead t k m = resolveRead s k m := by
  simp only [resolveRead, fetchCell_congr hip hlen htape, memRead_congr hlen htape, hrb]

/-- A write operand depends on nothing but `IP`, `LEN`, the tape, `RB` and `TAPE_LIMIT`. -/
theorem resolveWriteAddr_congr (hip : t.ip = s.ip) (hlen : t.len = s.len) (htape : t.tape = s.tape)
    (hrb : t.rb = s.rb) (hcfg : t.cfg = s.cfg) (k : Nat) (m : Mode) :
    resolveWriteAddr t k m = resolveWriteAddr s k m := by
  simp only [resolveWriteAddr, fetchCell_congr hip hlen htape, writeAddress, hrb, hcfg]

/-! ## Commit -/

/-- `IP` past `n` cells where the sum fits. -/
theorem advance_ip_toInt {n : Nat} (h : Fits64 (s.ip.toInt + n)) : (s.advance n).ip.toInt = s.ip.toInt + n := by
  rw [State.advance_ip, toInt_ofInt_of_fits h]

/-- The cell view of a store: the stored cell reads the value, every other cell as before, the cells a growing store
created included (R34, R45). -/
theorem cell_memWrite (hwf : s.tape.wf) (hb : s.tape.below s.len) (x y : Nat) (v : Word) :
    (s.memWrite x v).cell y = if y = x then v else s.cell y := by
  by_cases hy : y = x
  · subst hy
    have : ¬ max s.len (y + 1) ≤ y := by omega
    simp [State.cell, this, Memory.read_write_same hwf]
  · simp only [State.cell, State.memWrite_tape, State.memWrite_len, Memory.read_write_other _ _ hy, if_neg hy]
    by_cases hlen : s.len ≤ y
    · have := Memory.read_beyond hb hlen
      split <;> simp [this]
    · have : ¬ max s.len (x + 1) ≤ y := by omega
      rw [if_neg this, if_neg hlen]

/-- The end of a step is the commit or the fault entry, and always a next state. -/
@[simp] theorem settle_ok (s u : State) : settle s (.ok u) = .next u := rfl

@[simp] theorem settle_error (s : State) (k : FaultKind) : settle s (.error k) = .next (s.takeFault k) := rfl

end Sys2Proof.Machine
end

