-- ==== Sys2Proof/Laws/Exec.lean ====
section
/-! SUPPORT. What an instruction can do, said once: every execution answers a next state, and that state is one of the
effects listed here. The invariants and the frames are case analyses over it. -/

namespace Sys2Proof.Machine

/-- The states an execution of an instruction from `s` can leave, with where the values and addresses come from. -/
inductive Effect (s : State) : Instr → State → Prop where
  /-- a raise in the check phase -/
  | raised {i} (k : FaultKind) (hk : k ≠ .startupParseFault) : Effect s i (s.takeFault k)
  /-- Add, Multiply, JumpLt, JumpEq -/
  | stored {i} (m : Mode) (x : Nat) (v : Word) (hi : i.roles = [.read, .read, .write]) (hm : i.writeMode = some m)
      (hx : resolveWriteAddr s 3 m = .ok x) (h0 : 0 ≤ s.ip.toInt + 1) : Effect s i ((s.memWrite x v).advance 4)
  /-- Input -/
  | popped {m} (x : Nat) (v : Word) (rest : List Word) (hq : s.inq = v :: rest)
      (hx : resolveWriteAddr s 1 m = .ok x) : Effect s (.input m) (((s.setInq rest).memWrite x v).advance 2)
  /-- Output -/
  | yielded {m} (a : Word) (ha : resolveRead s 1 m = .ok a) :
      Effect s (.output m) (((s.setOut a).setStatus .suspendedOnOutput).advance 2)
  /-- a taken jump -/
  | jumped {i} (m1 m2 : Mode) (target : Word) (hi : i = .jumpIfNz m1 m2 ∨ i = .jumpIfZ m1 m2)
      (ht : resolveRead s 2 m2 = .ok target) : Effect s i (s.setIp target)
  /-- a jump not taken -/
  | fellThrough {i} (m1 m2 : Mode) (target : Word) (hi : i = .jumpIfNz m1 m2 ∨ i = .jumpIfZ m1 m2)
      (ht : resolveRead s 2 m2 = .ok target) (h0 : 0 ≤ s.ip.toInt + 1) : Effect s i (s.advance 3)
  /-- AdjRelBase -/
  | rebased {m} (a r : Word) (ha : resolveRead s 1 m = .ok a) (hr : r.toInt = s.rb.toInt + a.toInt) :
      Effect s (.adjRelBase m) ((s.setRb r).advance 2)
  /-- Exit -/
  | exited : Effect s .exit ((s.setStatus .halted).advance 1)

variable (s : State)

theorem arithmetic_effect {i : Instr} (f : Int → Int → Int) (m1 m2 m3 : Mode)
    (hi : i.roles = [.read, .read, .write]) (hm : i.writeMode = some m3) :
    ∃ t, settle s (arithmetic f m1 m2 m3 s) = .next t ∧ Effect s i t := by
  simp only [arithmetic, bind, Except.bind]
  cases h1 : resolveRead s 1 m1 with
  | error k => exact ⟨_, rfl, .raised k (by rw [resolveRead_eq_error h1]; decide)⟩
  | ok a =>
  cases h2 : resolveRead s 2 m2 with
  | error k => exact ⟨_, rfl, .raised k (by rw [resolveRead_eq_error h2]; decide)⟩
  | ok b =>
  cases hr : narrow (f a.toInt b.toInt) with
  | error k => simp only [hr]; exact ⟨_, rfl, .raised k (by rw [(narrow_eq_error hr).2]; decide)⟩
  | ok r =>
  cases h3 : resolveWriteAddr s 3 m3 with
  | error k =>
    simp only [hr]
    exact ⟨_, rfl, .raised k (by rcases resolveWriteAddr_eq_error h3 with h | h | h <;> rw [h] <;> decide)⟩
  | ok x => simp only [hr]; exact ⟨_, rfl, .stored m3 x r hi hm h3 (resolveRead_eq_ok h1).1⟩

theorem compareInto_effect {i : Instr} (p : Word → Word → Bool) (m1 m2 m3 : Mode)
    (hi : i.roles = [.read, .read, .write]) (hm : i.writeMode = some m3) :
    ∃ t, settle s (compareInto p m1 m2 m3 s) = .next t ∧ Effect s i t := by
  simp only [compareInto, bind, Except.bind]
  cases h1 : resolveRead s 1 m1 with
  | error k => exact ⟨_, rfl, .raised k (by rw [resolveRead_eq_error h1]; decide)⟩
  | ok a =>
  cases h2 : resolveRead s 2 m2 with
  | error k => exact ⟨_, rfl, .raised k (by rw [resolveRead_eq_error h2]; decide)⟩
  | ok b =>
  cases h3 : resolveWriteAddr s 3 m3 with
  | error k => exact ⟨_, rfl, .raised k (by rcases resolveWriteAddr_eq_error h3 with h | h | h <;> rw [h] <;> decide)⟩
  | ok x => exact ⟨_, rfl, .stored m3 x _ hi hm h3 (resolveRead_eq_ok h1).1⟩

theorem jumpWhen_effect {i : Instr} (taken : Word → Bool) (m1 m2 : Mode)
    (hi : i = .jumpIfNz m1 m2 ∨ i = .jumpIfZ m1 m2) :
    ∃ t, settle s (jumpWhen taken m1 m2 s) = .next t ∧ Effect s i t := by
  simp only [jumpWhen, bind, Except.bind]
  cases h1 : resolveRead s 1 m1 with
  | error k => exact ⟨_, rfl, .raised k (by rw [resolveRead_eq_error h1]; decide)⟩
  | ok a =>
  cases h2 : resolveRead s 2 m2 with
  | error k => exact ⟨_, rfl, .raised k (by rw [resolveRead_eq_error h2]; decide)⟩
  | ok target =>
    cases hj : taken a with
    | true => exact ⟨_, rfl, by simpa [hj] using .jumped m1 m2 target hi h2⟩
    | false => exact ⟨_, rfl, by simpa [hj] using .fellThrough m1 m2 target hi h2 (resolveRead_eq_ok h1).1⟩

theorem input_effect (m : Mode) : ∃ t, settle s (inputPhases m s) = .next t ∧ Effect s (.input m) t := by
  simp only [inputPhases, popInput, bind, Except.bind]
  cases hq : s.inq with
  | nil => exact ⟨_, rfl, .raised _ (by decide)⟩
  | cons v rest =>
  cases h1 : resolveWriteAddr s 1 m with
  | error k =>
    exact ⟨_, rfl, .raised k (by rcases resolveWriteAddr_eq_error h1 with h | h | h <;> rw [h] <;> decide)⟩
  | ok x => exact ⟨_, rfl, .popped x v rest hq h1⟩

theorem output_effect (m : Mode) : ∃ t, settle s (outputPhases m s) = .next t ∧ Effect s (.output m) t := by
  simp only [outputPhases, bind, Except.bind]
  cases h1 : resolveRead s 1 m with
  | error k => exact ⟨_, rfl, .raised k (by rw [resolveRead_eq_error h1]; decide)⟩
  | ok a => exact ⟨_, rfl, .yielded a h1⟩

theorem adjRelBase_effect (m : Mode) :
    ∃ t, settle s (adjRelBasePhases m s) = .next t ∧ Effect s (.adjRelBase m) t := by
  simp only [adjRelBasePhases, bind, Except.bind]
  cases h1 : resolveRead s 1 m with
  | error k => exact ⟨_, rfl, .raised k (by rw [resolveRead_eq_error h1]; decide)⟩
  | ok a =>
  cases hr : narrow (s.rb.toInt + a.toInt) with
  | error k => simp only [hr]; exact ⟨_, rfl, .raised k (by rw [(narrow_eq_error hr).2]; decide)⟩
  | ok r => simp only [hr]; exact ⟨_, rfl, .rebased a r h1 (narrow_eq_ok hr).2⟩

/-- Everything the execution of an instruction can do. -/
theorem exec_cases (i : Instr) : ∃ t, exec i s = .next t ∧ Effect s i t := by
  cases i with
  | add m1 m2 m3 => exact arithmetic_effect s _ m1 m2 m3 rfl rfl
  | multiply m1 m2 m3 => exact arithmetic_effect s _ m1 m2 m3 rfl rfl
  | input m => exact input_effect s m
  | output m => exact output_effect s m
  | jumpIfNz m1 m2 => exact jumpWhen_effect s _ m1 m2 (.inl rfl)
  | jumpIfZ m1 m2 => exact jumpWhen_effect s _ m1 m2 (.inr rfl)
  | jumpLt m1 m2 m3 => exact compareInto_effect s _ m1 m2 m3 rfl rfl
  | jumpEq m1 m2 m3 => exact compareInto_effect s _ m1 m2 m3 rfl rfl
  | adjRelBase m => exact adjRelBase_effect s m
  | exit => exact ⟨_, rfl, .exited⟩

/-- The effect behind a next state of an execution. -/
theorem effect_of_exec {i : Instr} {s t : State} (h : exec i s = .next t) : Effect s i t := by
  obtain ⟨u, hu, he⟩ := exec_cases s i
  rw [h] at hu
  cases hu
  exact he

/-! ## Fetching an instruction and one turn of the loop -/

theorem fetchInstr_of_word {s : State} {w : Word} {i : Instr} (hw : fetchCell s 0 = .ok w)
    (hi : decodeWord w = .ok i) : fetchInstr s = .ok i := by
  simp only [fetchInstr, hw, hi, bind, Except.bind]

theorem fetchInstr_of_no_instr {s : State} {w : Word} {e : DecodeError} (hw : fetchCell s 0 = .ok w)
    (he : decodeWord w = .error e) : fetchInstr s = .error .decodeFault := by
  simp only [fetchInstr, hw, he, bind, Except.bind]

theorem fetchInstr_of_no_cell {s : State} {k : FaultKind} (hw : fetchCell s 0 = .error k) :
    fetchInstr s = .error k := by
  simp only [fetchInstr, hw, bind, Except.bind]

theorem fetchInstr_eq_ok {s : State} {i : Instr} (h : fetchInstr s = .ok i) :
    ∃ w, fetchCell s 0 = .ok w ∧ decodeWord w = .ok i := by
  cases hw : fetchCell s 0 with
  | error k => rw [fetchInstr_of_no_cell hw] at h; cases h
  | ok w =>
  cases hd : decodeWord w with
  | error e => rw [fetchInstr_of_no_instr hw hd] at h; cases h
  | ok j => rw [fetchInstr_of_word hw hd] at h; cases h; exact ⟨w, rfl, hd⟩

theorem fetchInstr_eq_error {s : State} {k : FaultKind} (h : fetchInstr s = .error k) :
    (k = .addressFault ∧ fetchCell s 0 = .error .addressFault) ∨
    (k = .decodeFault ∧ ∃ w e, fetchCell s 0 = .ok w ∧ decodeWord w = .error e) := by
  cases hw : fetchCell s 0 with
  | error e =>
    rw [fetchInstr_of_no_cell hw] at h; cases h
    exact .inl ⟨(fetchCell_eq_error hw).1, by rw [(fetchCell_eq_error hw).1]⟩
  | ok w =>
  cases hd : decodeWord w with
  | error e => rw [fetchInstr_of_no_instr hw hd] at h; cases h; exact .inr ⟨rfl, w, e, rfl, hd⟩
  | ok j => rw [fetchInstr_of_word hw hd] at h; cases h

/-- What one step of the loop can do from a state in which the engine runs: a fault of the fetch or of the decoding, or
an effect of the decoded instruction. -/
theorem step_cases {s t : State} (h : step s = .next t) :
    (s.status = .running ∨ s.status = .suspendedOnOutput) ∧
    ((∃ k, fetchInstr (s.setStatus .running) = .error k ∧ t = (s.setStatus .running).takeFault k) ∨
      ∃ i, fetchInstr (s.setStatus .running) = .ok i ∧ Effect (s.setStatus .running) i t) := by
  have run : ∀ u : State, runOne u = .next t →
      (∃ k, fetchInstr u = .error k ∧ t = u.takeFault k) ∨ ∃ i, fetchInstr u = .ok i ∧ Effect u i t := by
    intro u hu
    cases hf : fetchInstr u with
    | error k => simp only [runOne, hf, settle_error, Host.Outcome.next.injEq] at hu; exact .inl ⟨k, rfl, hu.symm⟩
    | ok i => simp only [runOne, hf] at hu; exact .inr ⟨i, rfl, effect_of_exec hu⟩
  cases hs : s.status with
  | running => simp only [step, cycle, hs] at h; exact ⟨.inl rfl, run _ h⟩
  | suspendedOnOutput => simp only [step, cycle, hs] at h; exact ⟨.inr rfl, run _ h⟩
  | halted => simp only [step, cycle, hs] at h; cases h
  | faulted => simp only [step, cycle, hs] at h; cases h
  | awaitingMoreInput => simp only [step, cycle, hs] at h; cases h

end Sys2Proof.Machine
end

