-- ==== Sys2Proof/Laws/PerInstr.lean ====
section
/-! SUPPORT. The per-instruction families of LAWS.json: one lemma per constructor of Instr. -/

namespace Sys2Proof.Laws

/-- Decoding the encoded word gives the instruction back, whatever its modes are, mode 1 on a write operand included
(spec/30_encoding.md R59, R62). -/
def RoundTrip.Statement (i : Instr) : Prop := decodeWord (encode i) = .ok i

theorem RoundTrip.add (a b dest : Mode) : RoundTrip.Statement (.add a b dest) := by
  cases a <;> cases b <;> cases dest <;> rfl

theorem RoundTrip.multiply (a b dest : Mode) : RoundTrip.Statement (.multiply a b dest) := by
  cases a <;> cases b <;> cases dest <;> rfl

theorem RoundTrip.input (dest : Mode) : RoundTrip.Statement (.input dest) := by cases dest <;> rfl

theorem RoundTrip.output (a : Mode) : RoundTrip.Statement (.output a) := by cases a <;> rfl

theorem RoundTrip.jumpIfNz (a target : Mode) : RoundTrip.Statement (.jumpIfNz a target) := by
  cases a <;> cases target <;> rfl

theorem RoundTrip.jumpIfZ (a target : Mode) : RoundTrip.Statement (.jumpIfZ a target) := by
  cases a <;> cases target <;> rfl

theorem RoundTrip.jumpLt (a b dest : Mode) : RoundTrip.Statement (.jumpLt a b dest) := by
  cases a <;> cases b <;> cases dest <;> rfl

theorem RoundTrip.jumpEq (a b dest : Mode) : RoundTrip.Statement (.jumpEq a b dest) := by
  cases a <;> cases b <;> cases dest <;> rfl

theorem RoundTrip.adjRelBase (a : Mode) : RoundTrip.Statement (.adjRelBase a) := by cases a <;> rfl

theorem RoundTrip.exit : RoundTrip.Statement .exit := rfl

end Sys2Proof.Laws
end

