-- ==== Sys2Proof/Laws/Runs.lean ====
section
/-! SUPPORT. The execution of an instruction that stores, said once for all five of them, and the loop of RUN turn by
turn, for the proofs to cite instead of unfolding `runFor`. -/

namespace Sys2Proof.Machine

variable {s t : State}

/-- A storing instruction whose write operand resolves stores its own value there and moves past its cells. Input leaves
the rest of the queue, the others leave the queue as it is. -/
theorem exec_of_storedValue {i : Instr} {m : Mode} {x : Nat} {v : Word} (hm : i.writeMode = some m)
    (hx : resolveWriteAddr s i.roles.length m = .ok x) (hv : StoredValue s i v) :
    ∃ q, exec i s = .next (((s.setInq q).memWrite x v).advance i.cells) := by
  have word : ∀ z : Int, v.toInt = z → narrow z = .ok v := fun z h => by
    rw [narrow_of_fits (h ▸ toInt_bounds v), ← h, BitVec.ofInt_toInt]
  have truth : ∀ p : Bool, v.toInt = (if p then 1 else 0) → truthWord p = v := fun p h =>
    word_eq_of_toInt (by cases p <;> simpa [truthWord] using h.symm)
  cases i with
  | add m1 m2 m3 =>
    obtain ⟨a, b, ha, hb, h⟩ := hv
    cases hm
    exact ⟨s.inq, by simp only [exec, execAdd, arithmetic, ha, hb, word _ h, show resolveWriteAddr s 3 _ = _ from hx,
      bind, Except.bind, settle_ok]; rfl⟩
  | multiply m1 m2 m3 =>
    obtain ⟨a, b, ha, hb, h⟩ := hv
    cases hm
    exact ⟨s.inq, by simp only [exec, execMultiply, arithmetic, ha, hb, word _ h,
      show resolveWriteAddr s 3 _ = _ from hx, bind, Except.bind, settle_ok]; rfl⟩
  | jumpLt m1 m2 m3 =>
    obtain ⟨a, b, ha, hb, h⟩ := hv
    cases hm
    exact ⟨s.inq, by simp only [exec, execJumpLt, compareInto, ha, hb, truth (signedLess a b) (by simpa [signedLess]),
      show resolveWriteAddr s 3 _ = _ from hx, bind, Except.bind, settle_ok]; rfl⟩
  | jumpEq m1 m2 m3 =>
    obtain ⟨a, b, ha, hb, h⟩ := hv
    cases hm
    exact ⟨s.inq, by simp only [exec, execJumpEq, compareInto, ha, hb, truth (sameValue a b) (by simpa [sameValue]),
      show resolveWriteAddr s 3 _ = _ from hx, bind, Except.bind, settle_ok]; rfl⟩
  | input m1 =>
    obtain ⟨rest, hq⟩ : ∃ rest, s.inq = v :: rest := List.head?_eq_some_iff.mp hv
    cases hm
    exact ⟨rest, by simp only [exec, execInput, inputPhases, popInput, hq, show resolveWriteAddr s 1 _ = _ from hx,
      bind, Except.bind, settle_ok]; rfl⟩
  | output _ | jumpIfNz _ _ | jumpIfZ _ _ | adjRelBase _ | exit => exact hv.elim

/-- A storing instruction takes a fault of its read operands, its result or its queue, or it has a value to store. -/
theorem exec_faults_or_storedValue {i : Instr} {m : Mode} (hm : i.writeMode = some m) :
    (∃ k, exec i s = .next (s.takeFault k)) ∨ ∃ v, StoredValue s i v := by
  have truth : ∀ (p : Prop) [Decidable p], (BitVec.ofInt 64 (if p then 1 else 0)).toInt = if p then 1 else 0 := by
    intro p _; split <;> decide
  cases i with
  | add m1 m2 m3 | multiply m1 m2 m3 =>
    simp only [exec, execAdd, execMultiply, arithmetic, bind, Except.bind]
    cases h1 : resolveRead s 1 m1 with
    | error k => exact .inl ⟨k, rfl⟩
    | ok a =>
    cases h2 : resolveRead s 2 m2 with
    | error k => exact .inl ⟨k, rfl⟩
    | ok b =>
    dsimp only
    split
    · next k _ => exact .inl ⟨k, rfl⟩
    · next r hr => exact .inr ⟨r, a, b, h1, h2, (narrow_eq_ok hr).2⟩
  | jumpLt m1 m2 m3 | jumpEq m1 m2 m3 =>
    simp only [exec, execJumpLt, execJumpEq, compareInto, bind, Except.bind]
    cases h1 : resolveRead s 1 m1 with
    | error k => exact .inl ⟨k, rfl⟩
    | ok a =>
    cases h2 : resolveRead s 2 m2 with
    | error k => exact .inl ⟨k, rfl⟩
    | ok b => exact .inr ⟨_, a, b, h1, h2, truth _⟩
  | input m1 =>
    cases hq : s.inq with
    | nil => exact .inl ⟨.inputExhausted, by simp only [exec, execInput, inputPhases, popInput, hq, bind, Except.bind]; rfl⟩
    | cons v rest => exact .inr ⟨v, by simp [StoredValue, hq]⟩
  | output _ | jumpIfNz _ _ | jumpIfZ _ _ | adjRelBase _ | exit => cases hm

/-! ## The loop of RUN -/

theorem runFor_zero : runFor 0 s = .executing s := rfl

theorem runFor_of_continued (n : Nat) (h : step s = .next t) (hc : stepResult t = .continued) :
    runFor (n + 1) s = runFor n t := by simp only [runFor, h, hc]

theorem runFor_of_returned (n : Nat) {o : RunOutcome} (h : step s = .next t) (ho : returnedOn (stepResult t) = some o) :
    runFor (n + 1) s = .returned o t := by
  cases hr : stepResult t <;> rw [hr] at ho <;> cases ho <;> simp only [runFor, h, hr]

theorem runFor_of_refused (n : Nat) {r : Refusal} (h : step s = .refused r) : runFor (n + 1) s = .returned .rejected s := by
  simp only [runFor, h]

end Sys2Proof.Machine
end

