-- ==== Sys2Proof/Tests/Slice0.lean ====
section
/-! SUPPORT. The model's own tests. Expected results come from the vectors of spec/95_test_vectors.md (named in each
docstring) or from the encoding tables of spec/30_encoding.md; the witnesses at the end show, for every statement with
hypotheses, a concrete state and operands that meet them together. -/

namespace Sys2Proof.Tests

open Sys2Proof Sys2Proof.Machine

/-- The state after RESET of an image with the standard parameters. -/
def onTape (image : List Word) : State := resetImage Config.standard image

/-- The same with `TAPE_LIMIT = 100`. -/
def onShortTape (image : List Word) : State := resetImage { tapeLimit := 100, inqDepth := none } image

/-- The next state of a step, where there is one. -/
def after (s : State) : Option State :=
  match step s with
  | .next t => some t
  | .fault _ | .refused _ => none

theorem step_of_after {s t : State} (h : after s = some t) : step s = .next t := by
  unfold after at h
  split at h <;> cases h
  assumption

/-- What a step changed, as the vectors list it: `IP`, `LEN`, `RB`, and a cell. -/
def view (x : Nat) (s : State) : Option (Int × Nat × Int × Int) :=
  (after s).map fun t => (t.ip.toInt, t.len, t.rb.toInt, (t.cell x).toInt)

/-- `STATE`, `FAULT`, `OUT` and `IP` after a step. -/
def status (s : State) : Option (RunState × Option FaultKind × Int × Int) :=
  (after s).map fun t => (t.status, t.fault, t.out.toInt, t.ip.toInt)

/-! ## WellFormed: an ill-formed term for each check, and a well-formed one -/

theorem test_wellFormed_refuses_immediate_dest :
    (Instr.add .position .position .immediate).wellFormed = false ∧ (Instr.input .immediate).wellFormed = false ∧
    (Instr.add .immediate .immediate .relative).wellFormed = true := by decide

theorem test_line_refuses_wrong_cell_count :
    (Line.mk (.add .position .position .position) [0#64, 0#64]).wellFormed = false ∧
    (Line.mk .exit [0#64]).wellFormed = false ∧
    (Line.mk (.add .immediate .immediate .position) [100#64, -1#64, 4#64]).wellFormed = true := by decide

theorem test_line_refuses_immediate_dest : (Line.mk (.input .immediate) [5#64]).wellFormed = false := by decide

/-- R61: `1101,100,-1,4` is `Add #100, #-1, [4]`. -/
theorem test_assemble : assemble (Line.mk (.add .immediate .immediate .position) [100#64, -1#64, 4#64]) =
    [1101#64, 100#64, -1#64, 4#64] := by decide

/-! ## Decoding, one word of each constructor written out from R51 and R53 -/

theorem test_decode_add : decodeWord 21101#64 = .ok (.add .immediate .immediate .relative) := by decide
theorem test_decode_multiply : decodeWord 22202#64 = .ok (.multiply .relative .relative .relative) := by decide
theorem test_decode_input : decodeWord 3#64 = .ok (.input .position) := by decide
theorem test_decode_output : decodeWord 204#64 = .ok (.output .relative) := by decide
theorem test_decode_jumpIfNz : decodeWord 1005#64 = .ok (.jumpIfNz .position .immediate) := by decide
theorem test_decode_jumpIfZ : decodeWord 106#64 = .ok (.jumpIfZ .immediate .position) := by decide
theorem test_decode_jumpLt : decodeWord 7#64 = .ok (.jumpLt .position .position .position) := by decide
theorem test_decode_jumpEq : decodeWord 1008#64 = .ok (.jumpEq .position .immediate .position) := by decide
theorem test_decode_adjRelBase : decodeWord 109#64 = .ok (.adjRelBase .immediate) := by decide
theorem test_decode_exit : decodeWord 99#64 = .ok .exit := by decide
/-- R59: mode 1 on a write operand decodes. -/
theorem test_decode_immediate_dest : decodeWord 103#64 = .ok (.input .immediate) := by decide

/-- VD3, VD4, VD6, VD9, VD12, VD14, VD16, VD18, VD20, VD23. -/
theorem test_decode_refusals :
    decodeWord 10#64 = .error .unknownOpcode ∧ decodeWord 98#64 = .error .unknownOpcode ∧
    decodeWord 199#64 = .error .surplusDigit ∧ decodeWord 301#64 = .error .illegalMode ∧
    decodeWord 30001#64 = .error .illegalMode ∧ decodeWord 100001#64 = .error .surplusDigit ∧
    decodeWord 1004#64 = .error .surplusDigit ∧ decodeWord 10005#64 = .error .surplusDigit ∧
    decodeWord (-1#64) = .error .negativeWord ∧
    decodeWord 9223372036854775807#64 = .error .illegalMode := by decide

theorem test_decodeTableWord : decodeTableWord 8 4 = some (.output .position) ∧
    decodeTableWord 64 104 = some (.output .immediate) ∧ decodeTableWord 8 0 = none := by decide

/-! ## One step -/

/-- VA1. -/
theorem test_add : view 7 (onTape [1#64, 5#64, 6#64, 7#64, 99#64, 20#64, 22#64]) = some (4, 8, 0, 42) := by decide
/-- VA21: the overflow is found before the write operand. -/
theorem test_add_overflow : status (onTape [11101#64, 9223372036854775807#64, 1#64, 0#64]) =
    some (.faulted, some .arithmeticOverflow, 0, 0) := by decide
/-- VM11: `2^32 * -2^31 = -2^63` fits. -/
theorem test_multiply : view 0 (onTape [1102#64, 4294967296#64, -2147483648#64, 0#64]) =
    some (4, 4, 0, -9223372036854775808) := by decide
/-- VM13. -/
theorem test_multiply_overflow : status (onTape [1102#64, 3037000500#64, 3037000500#64, 0#64]) =
    some (.faulted, some .arithmeticOverflow, 0, 0) := by decide
/-- VI1. -/
theorem test_input : ((after ((onTape [3#64, 9#64]).setInq [8#64, 7#64])).map fun t => (t.inq, t.cell 9, t.len)) =
    some ([7#64], 8#64, 10) := by decide
/-- VI8: the empty queue precedes the invalid target. -/
theorem test_input_exhausted : status (onTape [103#64, 0#64]) = some (.faulted, some .inputExhausted, 0, 0) := by
  decide
/-- VR4: offset -1 and base 3 address cell 2. -/
theorem test_output : status ((onTape [204#64, -1#64, 42#64]).setRb 3#64) =
    some (.suspendedOnOutput, none, 42, 2) := by decide
/-- VR12: the address -2^64 is computed exactly. -/
theorem test_output_no_wrap :
    status ((onTape [204#64, -9223372036854775808#64]).setRb (-9223372036854775808#64)) =
    some (.faulted, some .addressFault, 0, 0) := by decide
/-- VJ3: a negative condition jumps, a negative target is held. -/
theorem test_jumpIfNz : status (onTape [1105#64, -4#64, -9#64]) = some (.running, none, 0, -9) := by decide
/-- VJ10: the target is resolved though the jump is not taken. -/
theorem test_jumpIfNz_resolves_target : status (onTape [105#64, 0#64, -1#64]) =
    some (.faulted, some .addressFault, 0, 0) := by decide
/-- VJ13. -/
theorem test_jumpIfZ : status (onTape [1106#64, 0#64, 7#64]) = some (.running, none, 0, 7) := by decide
/-- VJ15. -/
theorem test_jumpIfZ_not_taken : status (onTape [1106#64, -1#64, 7#64]) = some (.running, none, 0, 3) := by decide
/-- VC4: the comparison is signed. -/
theorem test_jumpLt : view 5 (onTape [1107#64, -1#64, 0#64, 5#64, 99#64, -1#64]) = some (4, 6, 0, 1) := by decide
/-- VC2. -/
theorem test_jumpLt_equal : view 5 (onTape [1107#64, 8#64, 8#64, 5#64, 99#64, -1#64]) = some (4, 6, 0, 0) := by decide
/-- VC14: a read beyond `LEN` is 0. -/
theorem test_jumpEq : view 5 (onTape [1008#64, 50#64, 0#64, 5#64, 99#64, -1#64]) = some (4, 6, 0, 1) := by decide
/-- VC17. -/
theorem test_jumpEq_invalid_target : status (onTape [11108#64, 1#64, 1#64, 0#64]) =
    some (.faulted, some .invalidWriteTarget, 0, 0) := by decide
/-- VB4: the operand is read with the old base. -/
theorem test_adjRelBase : view 2 ((onTape [209#64, -3#64, 6#64]).setRb 5#64) = some (2, 3, 11, 6) := by decide
/-- VB6. -/
theorem test_adjRelBase_overflow : status ((onTape [109#64, 1#64]).setRb 9223372036854775807#64) =
    some (.faulted, some .arithmeticOverflow, 0, 0) := by decide
/-- VD1. -/
theorem test_exit : status (onTape [99#64]) = some (.halted, none, 0, 1) := by decide
/-- VF1: the empty image. -/
theorem test_fetch_empty : status State.reset = some (.faulted, some .addressFault, 0, 0) := by decide
/-- VF6: the write operand's cell lies beyond the tape. -/
theorem test_fetch_operand_beyond : status (onTape [1101#64, 1#64, 1#64]) =
    some (.faulted, some .addressFault, 0, 0) := by decide
/-- VR24 and VR25: the capacity. -/
theorem test_capacity : status ((onShortTape [3#64, 100#64]).setInq [9#64]) =
      some (.faulted, some .capacityFault, 0, 0) ∧
    view 99 ((onShortTape [3#64, 99#64]).setInq [9#64]) = some (2, 100, 0, 9) := by decide
/-- VR27: the highest writable address is one stored cell. -/
theorem test_highest_address : view 9223372036854775806 ((onTape [3#64, 9223372036854775806#64]).setInq [9#64]) =
    some (2, 9223372036854775807, 0, 9) := by decide

/-! ## The tape's canonical form, the transactions, the placing of an instruction -/

theorem test_write_zero_removes : Memory.write [(1, 5#64), (3, 7#64)] 3 0#64 = [(1, 5#64)] ∧
    Memory.write [(1, 5#64), (3, 7#64)] 2 6#64 = [(1, 5#64), (2, 6#64), (3, 7#64)] := by decide

/-- H5: a bounded queue. -/
theorem test_push_full :
    (transact 0 (.pushInput 2#64) (.live ((resetImage { tapeLimit := 9, inqDepth := some 1 } [99#64]).setInq [1#64]))).map
      (·.1) = some .full := by decide
/-- H6. -/
theorem test_peek : transact 0 (.peek 0) (.live (onTape [99#64])) = some (.cell 99#64, .live (onTape [99#64])) ∧
    transact 0 (.peek 1) (.live (onTape [99#64])) = some (.cell 0#64, .live (onTape [99#64])) := by decide
/-- H7: an image longer than the tape. -/
theorem test_reset_too_long :
    (transact 0 (.reset [1#64, 0#64, 0#64, 0#64, 99#64]) (.powerUp { tapeLimit := 4, inqDepth := none })).map (·.1) =
      some .refused ∧
    (transact 0 (.reset [1#64, 0#64, 0#64, 0#64, 99#64]) (.powerUp { tapeLimit := 5, inqDepth := none })).map (·.1) =
      some .created := by decide
/-- VO1 as a `RUN`, and H9: one turn of the endless loop. -/
theorem test_run : (transact 1 .run (.live (onTape [104#64, 7#64, 99#64]))).map (·.1) = some (.outcome (.output 7#64)) ∧
    runFor 1 (onTape [1105#64, 1#64, 0#64]) = .executing (onTape [1105#64, 1#64, 0#64]) := by decide
/-- S7: a `RUN` on a halted machine. -/
theorem test_run_rejected : (transact 1 .run (.live ((onTape [99#64]).setStatus .halted))).map (·.1) =
    some (.outcome .rejected) := by decide

/-- The placed instruction is the one the next step runs, from reset and from a finished machine. -/
theorem test_withFetchWord : fetchInstr (State.reset.withFetchWord 64 104) = .ok (.output .immediate) ∧
    status (State.reset.withFetchWord 8 99) = some (.halted, none, 0, 1) ∧
    status ((State.reset.setStatus .halted).withFetchWord 128 (104 + 7 * 2 ^ 64)) =
      some (.suspendedOnOutput, none, 7, 2) := by decide

/-! ## Witnesses: concrete states and operands that meet the hypotheses of each statement together, one line per clause,
the clauses in the statement's order -/

/-- A five-cell tape with `IP = 0`. -/
def five : State := onTape [1101#64, 2#64, 3#64, 4#64, 99#64]

theorem witness_ConsumedDigitAboveTwoFaults :
    (operandCount ((301#64).toNat % 100) = some 3 ∧ 3 ≤ (301#64).toNat / 10 ^ (0 + 2) % 10 ∧
      Runnable (onTape [301#64]) ∧ fetchCell (onTape [301#64]) 0 = .ok 301#64) ∧
    (Instr.input .immediate).writeMode = some .immediate ∧ fetchCell five 1 = .ok 2#64 := by decide

theorem witness_OpcodeAloneFixesLength : decodeWord 1101#64 = .ok (.add .immediate .immediate .position) ∧
    fetchCell five 0 = fetchCell (five.setRb 7#64) 0 ∧ five ≠ five.setRb 7#64 := by decide

theorem witness_OperandRolesOfEveryOpcode : Role.write ∈ (Instr.input .position).roles := by decide

theorem witness_DecodedWordsAtMost22208 : decodeWord 22208#64 = .ok (.jumpEq .relative .relative .relative) := by decide

theorem witness_FetchFaultsOutsideTape :
    (0 ≤ five.ip.toInt + (4 : Nat) ∧ five.ip.toInt + (4 : Nat) < five.len) ∧
    (five.setIp (-1#64)).ip.toInt + (0 : Nat) < 0 ∧ (five.len : Int) ≤ five.ip.toInt + (5 : Nat) := by decide

/-- Operand cells that hold -1, an offset whose sum with `RB` is 2^63, the last cell and the first beyond it. -/
theorem witness_ResolveReadInEveryMode :
    fetchCell five 5 = .error .addressFault ∧
    (fetchCell (onTape [4#64, -1#64]) 1 = .ok (-1#64) ∧ (-1#64).toInt < 0) ∧
    (fetchCell ((onTape [204#64, 9223372036854775807#64]).setRb 1#64) 1 = .ok 9223372036854775807#64 ∧
      9223372036854775807 < (9223372036854775807#64).toInt + ((onTape []).setRb 1#64).rb.toInt) ∧
    (fetchCell five 3 = .ok 4#64 ∧ 0 ≤ (4#64).toInt ∧ (4#64).toInt < five.len) ∧
    fetchCell (onTape [4#64, 2#64]) 1 = .ok 2#64 ∧ ((onTape [4#64, 2#64]).len : Int) ≤ (2#64).toInt := by decide

theorem witness_ResolveWriteAddrInEveryMode :
    fetchCell (onShortTape [3#64]) 1 = .error .addressFault ∧
    (fetchCell (onShortTape [3#64, -1#64]) 1 = .ok (-1#64) ∧ (-1#64).toInt < 0) ∧
    (fetchCell ((onShortTape [203#64, 9223372036854775807#64]).setRb 1#64) 1 = .ok 9223372036854775807#64 ∧
      9223372036854775807 < (9223372036854775807#64).toInt + ((onShortTape []).setRb 1#64).rb.toInt) ∧
    (fetchCell (onShortTape [3#64, 100#64]) 1 = .ok 100#64 ∧
      ((onShortTape []).cfg.tapeLimit : Int) ≤ (100#64).toInt) ∧
    fetchCell (onShortTape [3#64, 99#64]) 1 = .ok 99#64 ∧ (99#64).toInt < (onShortTape []).cfg.tapeLimit := by decide

theorem witness_NegativeAddressNeverWraps :
    (fetchCell (onTape [4#64, -1#64]) 1 = .ok (-1#64) ∧ (-1#64).toInt < 0) ∧
    (fetchCell ((onTape [204#64, 1#64]).setRb (-2#64)) 1 = .ok 1#64 ∧
      (1#64).toInt + ((onTape []).setRb (-2#64)).rb.toInt < 0) ∧
    Runnable (five.setIp (-1#64)) ∧ (five.setIp (-1#64)).ip.toInt < 0 := by decide

theorem witness_GrowthReadsZero : Invariant five ∧ five.len ≤ 5 ∧ 5 < 9 := by decide

/-- Completion, a first operand that faults, a second that faults, an overflow, a write operand that faults. -/
theorem witness_AddStoresExactSum :
    (Invariant five ∧ resolveRead five 1 .immediate = .ok 2#64 ∧ resolveRead five 2 .immediate = .ok 3#64 ∧
      Fits64 ((2#64).toInt + (3#64).toInt) ∧ resolveWriteAddr five 3 .position = .ok 4) ∧
    (Invariant (onTape [1#64, -1#64]) ∧ resolveRead (onTape [1#64, -1#64]) 1 .position = .error .addressFault) ∧
    (Invariant (onTape [101#64, 1#64]) ∧ resolveRead (onTape [101#64, 1#64]) 1 .immediate = .ok 1#64 ∧
      resolveRead (onTape [101#64, 1#64]) 2 .position = .error .addressFault) ∧
    ¬ Fits64 ((9223372036854775807#64).toInt + (1#64).toInt) ∧
    resolveWriteAddr five 3 .immediate = .error .invalidWriteTarget := by
  refine ⟨?_, ?_, ?_, ?_, ?_⟩ <;> decide

theorem witness_MultiplyStoresExactProduct :
    (Invariant five ∧ resolveRead five 1 .immediate = .ok 2#64 ∧ resolveRead five 2 .immediate = .ok 3#64 ∧
      Fits64 ((2#64).toInt * (3#64).toInt) ∧ resolveWriteAddr five 3 .position = .ok 4) ∧
    (resolveRead (onTape [1102#64, -9223372036854775808#64, -1#64, 0#64]) 1 .immediate =
        .ok (-9223372036854775808#64) ∧
      resolveRead (onTape [1102#64, -9223372036854775808#64, -1#64, 0#64]) 2 .immediate = .ok (-1#64) ∧
      ¬ Fits64 ((-9223372036854775808#64).toInt * (-1#64).toInt)) ∧
    Fits64 ((-9223372036854775808#64).toInt * (1#64).toInt) := by decide

/-- Both truth values at the boundary: 7 < 8, 8 < 8. -/
theorem witness_JumpLtStoresTruthOfLess :
    (Invariant (onTape [1107#64, 7#64, 8#64, 5#64]) ∧
      resolveRead (onTape [1107#64, 7#64, 8#64, 5#64]) 1 .immediate = .ok 7#64 ∧
      resolveRead (onTape [1107#64, 7#64, 8#64, 5#64]) 2 .immediate = .ok 8#64 ∧
      resolveWriteAddr (onTape [1107#64, 7#64, 8#64, 5#64]) 3 .position = .ok 5) ∧
    (7#64).toInt < (8#64).toInt ∧ ¬ (8#64).toInt < (8#64).toInt ∧
    resolveWriteAddr (onTape [1107#64, 7#64, 8#64, -1#64]) 3 .position = .error .addressFault := by decide

theorem witness_JumpEqStoresTruthOfEqual :
    (Invariant (onTape [1108#64, 8#64, 8#64, 5#64]) ∧
      resolveRead (onTape [1108#64, 8#64, 8#64, 5#64]) 1 .immediate = .ok 8#64 ∧
      resolveRead (onTape [1108#64, 8#64, 8#64, 5#64]) 2 .immediate = .ok 8#64 ∧
      resolveWriteAddr (onTape [1108#64, 8#64, 8#64, 5#64]) 3 .position = .ok 5) ∧
    (8#64).toInt = (8#64).toInt ∧ ¬ (-8#64).toInt = (8#64).toInt ∧
    resolveRead (onTape [8#64, 0#64]) 2 .position = .error .addressFault := by decide

/-- The next state a meaning answers, where it is one. -/
def nextOf (o : Host.Outcome State Fault Refusal) : Option State :=
  match o with
  | .next t => some t
  | .fault _ | .refused _ => none

theorem witness_ComparisonsNeverJump : Invariant five ∧ five.status = .running ∧
    (nextOf (exec (.jumpLt .immediate .immediate .position) five)).map (·.status) = some .running := by decide

theorem witness_InputPopsQueueIntoDest :
    (Invariant ((onTape [3#64, 9#64]).setInq [8#64]) ∧ ((onTape [3#64, 9#64]).setInq [8#64]).inq = 8#64 :: [] ∧
      resolveWriteAddr ((onTape [3#64, 9#64]).setInq [8#64]) 1 .position = .ok 9) ∧
    (Invariant (onTape [3#64, 9#64]) ∧ (onTape [3#64, 9#64]).inq = []) ∧
    resolveWriteAddr ((onTape [103#64, 9#64]).setInq [8#64]) 1 .immediate = .error .invalidWriteTarget := by decide

theorem witness_OutputYieldsAndSuspends : Invariant five ∧ resolveRead five 1 .immediate = .ok 2#64 ∧
    resolveRead (onTape [4#64, -1#64]) 1 .position = .error .addressFault := by decide

/-- Taken and not taken, and both faults. -/
theorem witness_JumpIfNzJumpsOnNonzero :
    (Invariant (onTape [1105#64, 0#64, 7#64]) ∧ resolveRead (onTape [1105#64, 0#64, 7#64]) 1 .immediate = .ok 0#64 ∧
      resolveRead (onTape [1105#64, 0#64, 7#64]) 2 .immediate = .ok 7#64 ∧ ¬ (0#64).toInt ≠ 0) ∧
    (resolveRead five 1 .immediate = .ok 2#64 ∧ resolveRead five 2 .immediate = .ok 3#64 ∧ (2#64).toInt ≠ 0) ∧
    resolveRead (onTape [5#64, -1#64]) 1 .position = .error .addressFault ∧
    resolveRead (onTape [105#64, 0#64, -1#64]) 2 .position = .error .addressFault := by decide

theorem witness_JumpIfZJumpsOnZero :
    (Invariant (onTape [1106#64, 0#64, 7#64]) ∧ resolveRead (onTape [1106#64, 0#64, 7#64]) 1 .immediate = .ok 0#64 ∧
      resolveRead (onTape [1106#64, 0#64, 7#64]) 2 .immediate = .ok 7#64 ∧ (0#64).toInt = 0) ∧
    (resolveRead five 1 .immediate = .ok 2#64 ∧ resolveRead five 2 .immediate = .ok 3#64 ∧ ¬ (2#64).toInt = 0) ∧
    resolveRead (onTape [106#64, 1#64, -1#64]) 2 .position = .error .addressFault := by decide

/-- Targets 4 (the last cell), 5 (`LEN`) and -1. -/
theorem witness_TargetCheckedByNextFetch :
    (1#64 ≠ 0#64 ∧ Runnable five ∧ resolveRead five 1 .immediate = .ok 2#64) ∧
    (resolveRead (onTape [1105#64, 1#64, 4#64, 0#64, 99#64]) 2 .immediate = .ok 4#64 ∧
      (4#64).toInt < (onTape [1105#64, 1#64, 4#64, 0#64, 99#64]).len) ∧
    (resolveRead (onTape [1106#64, 0#64, 3#64]) 2 .immediate = .ok 3#64 ∧
      ((onTape [1106#64, 0#64, 3#64]).len : Int) ≤ (3#64).toInt) ∧
    resolveRead (onTape [1105#64, 1#64, -1#64]) 2 .immediate = .ok (-1#64) := by decide

theorem witness_AdjRelBaseAddsToBase :
    (Invariant five ∧ resolveRead five 1 .immediate = .ok 2#64 ∧ Fits64 (five.rb.toInt + (2#64).toInt)) ∧
    resolveRead (onTape [9#64, -1#64]) 1 .position = .error .addressFault ∧
    (Invariant ((onTape [109#64, 1#64]).setRb 9223372036854775807#64) ∧
      ¬ Fits64 (((onTape []).setRb 9223372036854775807#64).rb.toInt + (1#64).toInt)) := by decide

theorem witness_ExitHalts : Invariant (onTape [99#64]) ∧ fetchCell (onTape [99#64]) 0 = .ok (encode .exit) := by decide

/-- Cell 1, an operand cell of the instruction itself, is its own source and destination. -/
theorem witness_OverlappingAddReadsOldValues :
    Invariant (onTape [1#64, 1#64, 1#64, 1#64]) ∧ fetchCell (onTape [1#64, 1#64, 1#64, 1#64]) 1 = .ok 1#64 ∧
    fetchCell (onTape [1#64, 1#64, 1#64, 1#64]) 2 = .ok 1#64 ∧ fetchCell (onTape [1#64, 1#64, 1#64, 1#64]) 3 = .ok 1#64 ∧
    0 ≤ (1#64).toInt ∧ (1#64).toInt < (onTape [1#64, 1#64, 1#64, 1#64]).cfg.tapeLimit ∧
    Fits64 (2 * ((onTape [1#64, 1#64, 1#64, 1#64]).cell (1#64).toInt.toNat).toInt) := by decide

/-- S2: the stored 99 is the next word. -/
theorem witness_StoredWordRunsNext :
    Invariant (onTape [1101#64, 100#64, -1#64, 4#64, 0#64]) ∧
    (onTape [1101#64, 100#64, -1#64, 4#64, 0#64]).status = .running ∧
    resolveWriteAddr (onTape [1101#64, 100#64, -1#64, 4#64, 0#64]) 3 .position = .ok 4 ∧
    StoredValue (onTape [1101#64, 100#64, -1#64, 4#64, 0#64]) (.add .immediate .immediate .position) 99#64 ∧
    decodeWord 99#64 = .ok .exit :=
  ⟨by decide, by decide, by decide, ⟨100#64, -1#64, by decide, by decide, by decide⟩, by decide⟩

/-- The same where the store grows the tape by the next word, and by Input, to an operand cell of the next instruction. -/
theorem witness_StoredWordRunsNext_growing :
    Invariant (onTape [1101#64, 100#64, -1#64, 4#64]) ∧
    resolveWriteAddr (onTape [1101#64, 100#64, -1#64, 4#64]) 3 .position = .ok 4 ∧
    StoredValue (onTape [1101#64, 100#64, -1#64, 4#64]) (.add .immediate .immediate .position) 99#64 ∧
    resolveWriteAddr ((onTape [3#64, 3#64, 104#64]).setInq [8#64]) 1 .position = .ok 3 ∧
    StoredValue ((onTape [3#64, 3#64, 104#64]).setInq [8#64]) (.input .position) 8#64 :=
  ⟨by decide, by decide, ⟨100#64, -1#64, by decide, by decide, by decide⟩, by decide, by decide⟩

/-- S2: the step after that store halts. -/
theorem test_stored_word_runs_next :
    ((after (onTape [1101#64, 100#64, -1#64, 4#64])).bind after).map (fun t => (t.status, t.ip.toInt)) =
      some (.halted, 5) := by decide

theorem witness_StepRunsDecodedInstruction : Runnable five ∧ fetchCell five 0 = .ok 1101#64 ∧
    decodeWord 1101#64 = .ok (.add .immediate .immediate .position) := by decide

theorem witness_StepFaultsWithoutInstruction :
    (Runnable State.reset ∧ fetchCell State.reset 0 = .error .addressFault) ∧
    Runnable (onTape [0#64]) ∧ fetchCell (onTape [0#64]) 0 = .ok 0#64 ∧ decodeWord 0#64 = .error .unknownOpcode := by
  decide

/-- Two different machines that agree on the inputs of a step. -/
theorem witness_StepIsFunctionOfItsInputs : Runnable five ∧ Runnable ((five.setOut 7#64).setStatus .suspendedOnOutput) ∧
    ((five.setOut 7#64).setStatus .suspendedOnOutput).tape = five.tape ∧
    (five.setOut 7#64).setStatus .suspendedOnOutput ≠ five := by decide

/-- A machine that steps, and another depth. -/
theorem witness_InqDepthUnusedBySteps : (after five).isSome ∧ withInqDepth five (some 1) ≠ five := by decide

/-- Both sides: a machine that steps safely, and one whose step faults. -/
theorem witness_StepIsSafeOrPreciseFault : (Runnable five ∧ (after five).map (·.status) = some .running) ∧
    Runnable (onTape [0#64]) ∧ (after (onTape [0#64])).map (·.status) = some .faulted := by decide

theorem witness_InstructionWriteRights :
    (nextOf (exec (.adjRelBase .immediate) five)).map (fun t => decide (t.rb ≠ five.rb)) = some true ∧
    (nextOf (exec (.output .immediate) five)).map (fun t => decide (t.out ≠ five.out ∧ t.status ≠ five.status)) =
      some true ∧
    (nextOf (exec (.input .position) (five.setInq [8#64]))).map (fun t => decide (t.inq ≠ [8#64])) = some true ∧
    (nextOf (exec .exit five)).map (fun t => decide (t.status ≠ five.status)) = some true := by decide

/-- The clauses of the write operand: it resolves beyond `LEN` and the instruction stores, it resolves and the
instruction faults, it does not resolve. -/
theorem witness_InstructionWriteRights_store :
    Invariant (onTape [1101#64, 2#64, 3#64, 9#64]) ∧
    resolveWriteAddr (onTape [1101#64, 2#64, 3#64, 9#64]) 3 .position = .ok 9 ∧
    (nextOf (exec (.add .immediate .immediate .position) (onTape [1101#64, 2#64, 3#64, 9#64]))).map
      (fun t => (t.len, (t.cell 9).toInt)) = some (10, 5) ∧
    resolveWriteAddr (onTape [1101#64, 9223372036854775807#64, 1#64, 0#64]) 3 .position = .ok 0 ∧
    (nextOf (exec (.add .immediate .immediate .position)
      (onTape [1101#64, 9223372036854775807#64, 1#64, 0#64]))).map (·.fault) = some (some .arithmeticOverflow) ∧
    resolveWriteAddr (onTape [11101#64, 2#64, 3#64, 9#64]) 3 .immediate = .error .invalidWriteTarget := by decide

theorem witness_InstructionPointerRule : Invariant five ∧ five.status = .running ∧ fetchCell five 0 = .ok 1101#64 ∧
    (nextOf (exec (.jumpIfNz .immediate .immediate) five)).map (·.ip) = some 3#64 := by decide

theorem witness_OnlyExitEndsNormally : (after (onTape [99#64])).map (·.status) = some .halted ∧
    (runFor 1 (onTape [99#64]) = .returned .halted (((onTape [99#64]).setStatus .halted).advance 1)) := by decide

/-- A program's run that ends normally exists. -/
theorem witness_EndsNormally : EndsNormally (onTape [99#64]) [] (((onTape [99#64]).setStatus .halted).advance 1) :=
  .halt ⟨1, by decide⟩

theorem witness_ReservedCodesNeverEntered : (after five).map (·.status) = some .running ∧
    five.fault ≠ some .startupParseFault := by decide

theorem witness_FinishedMachineRejectsRun : (five.setStatus .halted).status = .halted ∧
    (five.takeFault .decodeFault).status = .faulted := by decide

theorem witness_SuspensionKeepsContinuation : (five.setStatus .suspendedOnOutput).status = .suspendedOnOutput ∧
    (transact 0 (.pushInput 1#64) (.live (five.setStatus .suspendedOnOutput))).isSome := by decide

theorem witness_RunOutcomeMatchesRegisters :
    RunReturns (onTape [104#64, 7#64]) (.output 7#64)
      ((((onTape [104#64, 7#64]).setOut 7#64).setStatus .suspendedOnOutput).advance 2) ∧
    RunReturns (onTape [0#64]) (.fault .decodeFault) ((onTape [0#64]).takeFault .decodeFault) ∧
    RunReturns (five.setStatus .halted) .rejected (five.setStatus .halted) :=
  ⟨⟨1, by decide⟩, ⟨1, by decide⟩, ⟨1, by decide⟩⟩

/-- `RunIsDeterministic`: a machine whose `RUN` returns, watched twice. -/
theorem witness_RunIsDeterministic :
    RunReturns (onTape [0#64]) (.fault .decodeFault) ((onTape [0#64]).takeFault .decodeFault) := ⟨3, by decide⟩

/-- `[1105,1,0]` (R149): the set that holds this one state meets the hypothesis. -/
theorem witness_EndlessRunNeverReturns :
    (after (onTape [1105#64, 1#64, 0#64])) = some (onTape [1105#64, 1#64, 0#64]) ∧
    stepResult (onTape [1105#64, 1#64, 0#64]) = .continued := by decide

/-- One machine for each of the four results of a step. -/
theorem witness_RunFollowsItsSteps :
    Runnable five ∧ (after five).map stepResult = some .continued ∧
    Runnable (onTape [104#64, 7#64]) ∧ (after (onTape [104#64, 7#64])).map stepResult = some (.yielded 7#64) ∧
    Runnable (onTape [99#64]) ∧ (after (onTape [99#64])).map stepResult = some .halted ∧
    Runnable (onTape [0#64]) ∧ (after (onTape [0#64])).map stepResult = some (.faulted .decodeFault) := by decide

/-- `JumpIfNz #1, #3` continues once and `Exit` at cell 3 then returns. -/
theorem witness_RunReturnsAfterItsSteps :
    Continues 1 (onTape [1105#64, 1#64, 3#64, 99#64]) ((onTape [1105#64, 1#64, 3#64, 99#64]).setIp 3#64) ∧
    (after ((onTape [1105#64, 1#64, 3#64, 99#64]).setIp 3#64)).map (fun u => returnedOn (stepResult u)) =
      some (some .halted) :=
  ⟨.more (step_of_after (by decide)) (by decide) .here, by decide⟩

theorem witness_FinishedMachineStaysFinished : (five.setStatus .halted).status = .halted ∧
    (transact 0 (.pushInput 1#64) (.live (five.setStatus .halted))).isSome := by decide

/-- Depth 1 with an empty queue, and full. -/
theorem witness_PushInputAppendsOrReportsFull : five.cfg.inqDepth = none ∧
    ((resetImage { tapeLimit := 9, inqDepth := some 1 } []).inq.length < 1) ∧
    1 ≤ ((resetImage { tapeLimit := 9, inqDepth := some 1 } []).setInq [1#64]).inq.length := by decide

/-- An image of exactly `TAPE_LIMIT` cells, and one of one more. -/
theorem witness_ResetCreatesMachineFromImage :
    [1#64, 2#64].length ≤ (Engine.powerUp { tapeLimit := 2, inqDepth := none }).cfg.tapeLimit ∧
    (Engine.powerUp { tapeLimit := 2, inqDepth := none }).cfg.tapeLimit < [1#64, 2#64, 3#64].length := by decide

theorem witness_PowerUpRefusesAllButReset (image : List Word) : Transaction.run ≠ .reset image := by simp

theorem witness_HostReadsHaveNoEffect : ((4 : Fin 9223372036854775808) : Nat) < five.len ∧
    five.len ≤ ((5 : Fin 9223372036854775808) : Nat) := by decide

theorem witness_InvariantHoldsAfterReset : Config.standard.Valid ∧ [1#64].length ≤ Config.standard.tapeLimit ∧
    (Config.mk 1 (some 1)).Valid := by decide

theorem witness_StepKeepsInvariant : Invariant five ∧ (after five).isSome := by decide

theorem witness_TransactionsKeepInvariant : EngineInvariant (.live five) ∧ EngineInvariant (.powerUp Config.standard) ∧
    (transact 1 (.reset [99#64]) (.live five)).isSome := ⟨by decide, by decide, by decide⟩

end Sys2Proof.Tests
end

section
/-! PROOFS. The state of the engine (spec/10_state.md): what an effect of an instruction may write (R13 to R20, R23), the
invariant kept by every update and so by every step, and the machine `RESET` creates (R24). Each register's rule is a
case analysis over `Effect`, the list of everything an execution can do. -/

namespace Sys2Proof.Machine

variable {s t : State} {i : Instr}

/-! ## The invariant under each update of the state -/

theorem Invariant.setIp (h : Invariant s) (v : Word) : Invariant (s.setIp v) := h

theorem Invariant.advance (h : Invariant s) (n : Nat) : Invariant (s.advance n) := h.setIp _

theorem Invariant.setRb (h : Invariant s) (v : Word) : Invariant (s.setRb v) := h

theorem Invariant.setOut (h : Invariant s) (v : Word) : Invariant (s.setOut v) := h

/-- A store below `TAPE_LIMIT` keeps the tape canonical, and `LEN` grows no further than over the stored cell. -/
theorem Invariant.memWrite (h : Invariant s) {x : Nat} (hx : x < s.cfg.tapeLimit) (v : Word) :
    Invariant (s.memWrite x v) := by
  obtain ⟨hcfg, hlen, hwf, hbelow, hrest⟩ := h
  exact ⟨hcfg, Nat.max_le.mpr ⟨hlen, hx⟩, Memory.write_wf hwf x v,
    Memory.write_below (Memory.below_mono hbelow (Nat.le_max_left ..)) (Nat.le_max_right s.len (x + 1)) v, hrest⟩

/-- A queue that is no longer than the one before still fits. -/
theorem Invariant.setInq (h : Invariant s) {q : List Word} (hq : q.length ≤ s.inq.length) : Invariant (s.setInq q) := by
  obtain ⟨hcfg, hlen, hwf, hbelow, hinq, hrest⟩ := h
  exact ⟨hcfg, hlen, hwf, hbelow, fun d hd => Nat.le_trans hq (hinq d hd), hrest⟩

/-- A machine that is not Faulted may enter every state but Faulted and the reserved one without touching `FAULT`. -/
theorem Invariant.setStatus (h : Invariant s) (hs : s.status ≠ .faulted) {r : RunState} (hr : r ≠ .faulted)
    (hr' : r ≠ .awaitingMoreInput) : Invariant (s.setStatus r) := by
  obtain ⟨hcfg, hlen, hwf, hbelow, hinq, hfault, -, hkind⟩ := h
  exact ⟨hcfg, hlen, hwf, hbelow, hinq, iff_of_false (fun hf => hs (hfault.mp hf)) hr, hr', hkind⟩

theorem Invariant.takeFault (h : Invariant s) {k : FaultKind} (hk : k ≠ .startupParseFault) :
    Invariant (s.takeFault k) := by
  obtain ⟨hcfg, hlen, hwf, hbelow, hinq, -⟩ := h
  exact ⟨hcfg, hlen, hwf, hbelow, hinq, by simp, by simp, by simpa using hk⟩

/-! ## The invariant under a step -/

/-- Every effect of an instruction keeps the invariant of a machine that is not Faulted. -/
theorem Effect.keeps_invariant (he : Effect s i t) (h : Invariant s) (hs : s.status ≠ .faulted) : Invariant t := by
  cases he with
  | raised k hk => exact h.takeFault hk
  | stored m x v _ _ hx _ => exact (h.memWrite (resolveWriteAddr_eq_ok hx).2.2.1 v).advance 4
  | popped x v rest hq hx =>
    have hshorter : rest.length ≤ s.inq.length := by simp [hq]
    exact ((h.setInq hshorter).memWrite (resolveWriteAddr_eq_ok hx).2.2.1 v).advance 2
  | yielded a _ => exact ((h.setOut a).setStatus hs (by decide) (by decide)).advance 2
  | jumped _ _ target _ _ => exact h.setIp target
  | fellThrough => exact h.advance 3
  | rebased _ r _ _ => exact (h.setRb r).advance 2
  | exited => exact (h.setStatus hs (by decide) (by decide)).advance 1

/-- Neither the fetch nor the decoding of an instruction raises the loader's fault (R171, R174, R177). -/
theorem fetchInstr_error_ne_startupParseFault {k : FaultKind} (h : fetchInstr s = .error k) :
    k ≠ .startupParseFault := by
  rcases fetchInstr_eq_error h with ⟨rfl, -⟩ | ⟨rfl, -⟩ <;> decide

/-- Settles O46: a step sets `STATE` to Running, which keeps the invariant, and then raises a fault of the fetch or has
an effect of the decoded instruction. -/
theorem stepKeepsInvariant : Obligations.StepKeepsInvariant := by
  unfold Obligations.StepKeepsInvariant
  intro s t hinv hstep
  obtain ⟨hrunnable, hcases⟩ := step_cases hstep
  have hs : s.status ≠ .faulted := by rcases hrunnable with h | h <;> simp [h]
  have hrunning : Invariant (s.setStatus .running) := hinv.setStatus hs (by decide) (by decide)
  rcases hcases with ⟨k, hfetch, rfl⟩ | ⟨i, -, heffect⟩
  · exact hrunning.takeFault (fetchInstr_error_ne_startupParseFault hfetch)
  · exact heffect.keeps_invariant hrunning (by simp)

/-! ## Who writes which register -/

theorem faulted_takeFault (s : State) (k : FaultKind) : Faulted s (s.takeFault k) k :=
  ⟨rfl, rfl, rfl, rfl, rfl, rfl, rfl, rfl, rfl⟩

theorem Effect.adjRelBase_of_rb_ne (he : Effect s i t) (h : t.rb ≠ s.rb) : ∃ m, i = .adjRelBase m := by
  cases he with
  | rebased => exact ⟨_, rfl⟩
  | raised | stored | popped | yielded | jumped | fellThrough | exited => exact absurd rfl h

theorem Effect.output_of_out_ne (he : Effect s i t) (h : t.out ≠ s.out) : ∃ m, i = .output m := by
  cases he with
  | yielded => exact ⟨_, rfl⟩
  | raised | stored | popped | jumped | fellThrough | rebased | exited => exact absurd rfl h

theorem Effect.input_of_inq_ne (he : Effect s i t) (h : t.inq ≠ s.inq) :
    ∃ m v, i = .input m ∧ s.inq = v :: t.inq := by
  cases he with
  | popped x v rest hq _ => exact ⟨_, v, rfl, hq⟩
  | raised | stored | yielded | jumped | fellThrough | rebased | exited => exact absurd rfl h

theorem Effect.cases_of_status_ne (he : Effect s i t) (h : t.status ≠ s.status) :
    (∃ m, i = .output m ∧ t.status = .suspendedOnOutput) ∨ (i = .exit ∧ t.status = .halted) ∨
      ∃ k, Faulted s t k := by
  cases he with
  | raised k _ => exact .inr (.inr ⟨k, faulted_takeFault s k⟩)
  | yielded => exact .inl ⟨_, rfl, rfl⟩
  | exited => exact .inr (.inl ⟨rfl, rfl⟩)
  | stored | popped | jumped | fellThrough | rebased => exact absurd rfl h

theorem Effect.faulted_of_fault_ne (he : Effect s i t) (h : t.fault ≠ s.fault) : ∃ k, Faulted s t k := by
  cases he with
  | raised k _ => exact ⟨k, faulted_takeFault s k⟩
  | stored | popped | yielded | jumped | fellThrough | rebased | exited => exact absurd rfl h

theorem Effect.cfg_eq (he : Effect s i t) : t.cfg = s.cfg := by cases he <;> rfl

/-! ## Who writes the tape -/

theorem Effect.tape_kept (he : Effect s i t) (hi : i.writeMode = none) : t.tape = s.tape ∧ t.len = s.len := by
  cases he with
  | stored _ _ _ _ hm => rw [hi] at hm; cases hm
  | popped => cases hi
  | raised | yielded | jumped | fellThrough | rebased | exited => exact ⟨rfl, rfl⟩

/-- Without an address to store to, an instruction with a write operand can only raise. -/
theorem Effect.faulted_of_write_operand_error (he : Effect s i t) {m : Mode} {e : FaultKind}
    (hm : i.writeMode = some m) (hx : resolveWriteAddr s i.roles.length m = .error e) : ∃ k, Faulted s t k := by
  cases he with
  | raised k _ => exact ⟨k, faulted_takeFault s k⟩
  | stored m' x v hi hm' hx' _ =>
    obtain rfl : m' = m := Option.some.inj (hm'.symm.trans hm)
    rw [hi] at hx
    cases hx'.symm.trans hx
  | popped x v rest _ hx' =>
    cases hm
    cases hx'.symm.trans hx
  | jumped _ _ _ hi _ | fellThrough _ _ _ hi _ _ => rcases hi with rfl | rfl <;> cases hm
  | yielded | rebased | exited => cases hm

/-- A store to cell `x` as data reads see it; the updates around it leave the tape and `LEN` alone. -/
theorem storedIn_memWrite (hinv : Invariant s) (q : List Word) (x : Nat) (v : Word) (n : Nat) :
    StoredIn s (((s.setInq q).memWrite x v).advance n) x v := by
  obtain ⟨-, -, hwf, hbelow, -⟩ := hinv
  have hcell := fun y => cell_memWrite (s := s.setInq q) hwf hbelow x y v
  exact ⟨rfl, (hcell x).trans (if_pos rfl), fun y hy => (hcell y).trans (if_neg hy)⟩

/-- With an address to store to, an instruction with a write operand raises a fault or stores its own value there. -/
theorem exec_faults_or_stores {m : Mode} {x : Nat} (h : exec i s = .next t) (hm : i.writeMode = some m)
    (hx : resolveWriteAddr s i.roles.length m = .ok x) (hinv : Invariant s) :
    (∃ k, Faulted s t k) ∨ ∃ v, StoredValue s i v ∧ StoredIn s t x v := by
  rcases exec_faults_or_storedValue (s := s) hm with ⟨k, hk⟩ | ⟨v, hv⟩
  · cases h.symm.trans hk
    exact .inl ⟨k, faulted_takeFault s k⟩
  · obtain ⟨q, hq⟩ := exec_of_storedValue hm hx hv
    cases h.symm.trans hq
    exact .inr ⟨v, hv, storedIn_memWrite hinv q x v i.cells⟩

/-- Settles O31: one rule per register over the effects of an execution, and the two of the write operand. -/
theorem instructionWriteRights : Obligations.InstructionWriteRights := by
  unfold Obligations.InstructionWriteRights
  intro i s t h
  have he := effect_of_exec h
  exact ⟨he.adjRelBase_of_rb_ne, he.output_of_out_ne, he.input_of_inq_ne, he.cases_of_status_ne,
    he.faulted_of_fault_ne, he.cfg_eq, he.tape_kept, fun m hm =>
      ⟨fun _ hx => he.faulted_of_write_operand_error hm hx, fun _ hx hinv => exec_faults_or_stores h hm hx hinv⟩⟩

/-! ## The instruction pointer -/

/-- `IP` past an instruction whose last cell is `A + k`: that cell is present, so the next index is at most `TAPE_LIMIT`
and does not wrap. -/
theorem ipPast_advance {u : State} {k : Nat} (hinv : Invariant s) (hip : u.ip = s.ip) (hfirst : 0 ≤ s.ip.toInt)
    (hlast : s.ip.toInt + k < s.len) : IpPast s (u.advance (k + 1)) (k + 1) := by
  obtain ⟨⟨-, hlimit, -⟩, hlen, -⟩ := hinv
  have hfits : Fits64 (u.ip.toInt + (k + 1 : Nat)) := by
    simp only [Fits64, minInt64, maxInt64, hip] at hlimit ⊢
    omega
  rw [IpPast, advance_ip_toInt hfits, hip]

/-- An effect is a fault that leaves `IP` at the word, or completes with `IP` past the cells or at a jump's target. -/
theorem Effect.ip_rule (he : Effect s i t) (hinv : Invariant s) (hrun : s.status = .running)
    (hfirst : 0 ≤ s.ip.toInt) (hword : s.ip.toInt < s.len) :
    (t.status = .faulted ∧ t.ip = s.ip) ∨
    (t.status ≠ .faulted ∧
      (IpPast s t i.cells ∨
        ∃ m1 m2, (i = .jumpIfNz m1 m2 ∨ i = .jumpIfZ m1 m2) ∧ resolveRead s 2 m2 = .ok t.ip)) := by
  have hs : s.status ≠ .faulted := by simp [hrun]
  cases he with
  | raised k _ => exact .inl ⟨rfl, rfl⟩
  | stored m x v hi _ hx _ =>
    have hcells : i.cells = 3 + 1 := by simp [Instr.cells, hi]
    exact .inr ⟨hs, .inl (hcells ▸ ipPast_advance hinv rfl hfirst (resolveWriteAddr_eq_ok hx).2.1)⟩
  | popped x v rest _ hx => exact .inr ⟨hs, .inl (ipPast_advance hinv rfl hfirst (resolveWriteAddr_eq_ok hx).2.1)⟩
  | yielded a ha => exact .inr ⟨by simp, .inl (ipPast_advance hinv rfl hfirst (resolveRead_eq_ok ha).2)⟩
  | jumped m1 m2 target hi ht => exact .inr ⟨hs, .inr ⟨m1, m2, hi, ht⟩⟩
  | fellThrough m1 m2 target hi ht _ =>
    have hcells : i.cells = 2 + 1 := by rcases hi with rfl | rfl <;> rfl
    exact .inr ⟨hs, .inl (hcells ▸ ipPast_advance hinv rfl hfirst (resolveRead_eq_ok ht).2)⟩
  | rebased a r ha _ => exact .inr ⟨hs, .inl (ipPast_advance hinv rfl hfirst (resolveRead_eq_ok ha).2)⟩
  | exited => exact .inr ⟨by simp, .inl (ipPast_advance (k := 0) hinv rfl hfirst (by simpa using hword))⟩

/-- Settles O32: the fetched word is present, and the rule holds of every effect. -/
theorem instructionPointerRule : Obligations.InstructionPointerRule := by
  unfold Obligations.InstructionPointerRule
  intro i s t w hinv hrun hw h
  obtain ⟨hfirst, hword, -⟩ := fetchCell_eq_ok hw
  exact (effect_of_exec h).ip_rule hinv hrun (by simpa using hfirst) (by simpa using hword)

/-! ## The machine after RESET -/

/-- A created machine shows the image, and 0 in every cell at and beyond its end (R24, R45). -/
theorem cell_resetImage (cfg : Config) (image : List Word) (x : Nat) :
    (resetImage cfg image).cell x = image.getD x 0#64 := by
  have hread : (Memory.ofCells 0 image).read x = image.getD x 0#64 := by
    simpa using Memory.read_ofCells 0 x image
  by_cases hx : image.length ≤ x
  · simp [State.cell, hx]
  · simp only [State.cell, resetImage_len, if_neg hx, resetImage_tape, hread]

theorem resetEngine_of_fits {image : List Word} {e : Engine} (h : image.length ≤ e.cfg.tapeLimit) :
    resetEngine image e = (.created, .live (resetImage e.cfg image)) := if_pos h

theorem resetEngine_of_not_fits {image : List Word} {e : Engine} (h : e.cfg.tapeLimit < image.length) :
    resetEngine image e = (.refused, e) := if_neg (Nat.not_le.mpr h)

/-- Settles O42: a fitting image creates `resetImage`, whose cells are the image's. -/
theorem resetCreatesMachineFromImage : Obligations.ResetCreatesMachineFromImage := by
  unfold Obligations.ResetCreatesMachineFromImage
  intro fuel image e
  refine ⟨fun h => ⟨resetImage e.cfg image, congrArg some (resetEngine_of_fits h), rfl, rfl, rfl, rfl, rfl, rfl, rfl,
    rfl, fun x _ => cell_resetImage e.cfg image x, fun x hx => ?_⟩, fun h => congrArg some (resetEngine_of_not_fits h)⟩
  rw [cell_resetImage, List.getD_eq_default _ _ hx]

theorem invariant_resetImage {cfg : Config} {image : List Word} (hcfg : cfg.Valid)
    (hfits : image.length ≤ cfg.tapeLimit) : Invariant (resetImage cfg image) :=
  ⟨hcfg, hfits, Memory.ofCells_wf 0 image, Memory.ofCells_below image, by simp, by simp, by simp, by simp⟩

/-- Settles O45: `State.reset` is the empty image's machine, with the standard parameters. -/
theorem invariantHoldsAfterReset : Obligations.InvariantHoldsAfterReset := by
  unfold Obligations.InvariantHoldsAfterReset
  refine ⟨?_, fun _ _ hcfg hfits => invariant_resetImage hcfg hfits⟩
  rw [State.reset_eq]
  exact invariant_resetImage (by decide) (Nat.zero_le _)

end Sys2Proof.Machine
end

section
/-! PROOFS. The tape as the engine and the host see it (spec/20_memory.md R31 to R46): where a fetch answers, that no
negative address wraps, that growth reads 0, that a store is what the next fetch sees, and that the host's reads have no
effect. -/

namespace Sys2Proof.Machine

variable {s t : State}

/-! ## One turn of the loop, by what the fetch answers -/

/-- Where `RUN` is accepted, a step is `Step()` with `STATE` set to Running (R143, R144). -/
theorem step_of_runnable (h : Runnable s) : step s = runOne (s.setStatus .running) := by
  rcases h with h | h <;> simp only [step, cycle, h]

/-- `STATE` takes no part in a fetch. -/
theorem fetchCell_setStatus (s : State) (r : RunState) (k : Nat) : fetchCell (s.setStatus r) k = fetchCell s k :=
  fetchCell_congr rfl rfl rfl k

theorem step_of_word {w : Word} {i : Instr} (h : Runnable s) (hw : fetchCell s 0 = .ok w)
    (hi : decodeWord w = .ok i) : step s = exec i (s.setStatus .running) := by
  rw [← fetchCell_setStatus s .running] at hw
  simp only [step_of_runnable h, runOne, fetchInstr_of_word hw hi]

theorem step_of_no_cell {k : FaultKind} (h : Runnable s) (hw : fetchCell s 0 = .error k) :
    step s = .next ((s.setStatus .running).takeFault k) := by
  rw [← fetchCell_setStatus s .running] at hw
  simp only [step_of_runnable h, runOne, fetchInstr_of_no_cell hw, settle_error]

theorem setStatus_of_status {r : RunState} (h : s.status = r) : s.setStatus r = s := by
  subst h
  rfl

theorem step_of_running {w : Word} {i : Instr} (h : s.status = .running) (hw : fetchCell s 0 = .ok w)
    (hi : decodeWord w = .ok i) : step s = exec i s := by
  rw [step_of_word (.inl h) hw hi, setStatus_of_status h]

/-! ## Fetches and addresses outside the tape -/

/-- Settles O8: the two answers of a fetch, by where its cell lies. -/
theorem fetchFaultsOutsideTape : Obligations.FetchFaultsOutsideTape := by
  unfold Obligations.FetchFaultsOutsideTape
  intro s k
  exact ⟨fetchCell_of_inside, fun h => fetchCell_of_outside (.inl h), fun h => fetchCell_of_outside (.inr h)⟩

/-- Settles O11: both resolvers check the exact sum for its sign, and a step at a negative `IP` fails at its fetch. -/
theorem negativeAddressNeverWraps : Obligations.NegativeAddressNeverWraps := by
  unfold Obligations.NegativeAddressNeverWraps
  refine ⟨fun s k m c hc hneg => ?_, fun s hs hip => ?_⟩
  · rw [resolveRead_of_cell hc, resolveWriteAddr_of_cell hc]
    rcases hneg with ⟨rfl, hneg⟩ | ⟨rfl, hneg⟩ <;>
      exact ⟨memRead_of_no_address (.inl hneg), writeAddress_of_no_address (.inl hneg)⟩
  · have hfetch : fetchCell s 0 = .error .addressFault := fetchCell_of_outside (.inl (by simpa using hip))
    exact ⟨_, step_of_no_cell hs hfetch, rfl, rfl, rfl⟩

/-! ## The cells a data read and a fetch see -/

theorem cell_of_present {x : Nat} (h : x < s.len) : s.cell x = s.tape.read x := if_neg (Nat.not_le.mpr h)

theorem cell_of_absent {x : Nat} (h : s.len ≤ x) : s.cell x = 0#64 := if_pos h

/-- The store alone, without the updates of the queue and of `IP` around it. -/
theorem Invariant.storedIn_memWrite (h : Invariant s) (x : Nat) (v : Word) : StoredIn s (s.memWrite x v) x v := by
  have hqueue : s.setInq s.inq = s := rfl
  simpa only [hqueue, StoredIn, State.cell_advance, State.advance_len] using
    Machine.storedIn_memWrite h s.inq x v 0

/-- Nothing is listed at or beyond `LEN`. -/
theorem Invariant.read_beyond_len (h : Invariant s) {x : Nat} (hx : s.len ≤ x) : s.tape.read x = 0#64 := by
  obtain ⟨-, -, -, hbelow, -⟩ := h
  exact Memory.read_beyond hbelow hx

/-- Settles O12: RESET lists the image, and a store lists nothing but its own cell. -/
theorem growthReadsZero : Obligations.GrowthReadsZero := by
  unfold Obligations.GrowthReadsZero
  refine ⟨cell_resetImage, fun s hinv => ⟨fun x hx => ⟨hinv.read_beyond_len hx, cell_of_absent hx⟩, fun x v =>
    ⟨hinv.storedIn_memWrite x v, fun y hy hyx => ⟨?_, ?_⟩⟩⟩⟩
  · rw [State.memWrite_len]
    omega
  · rw [State.memWrite_tape, Memory.read_write_other _ _ hyx.ne, hinv.read_beyond_len hy]

/-! ## A store is what the next fetch sees -/

/-- The stored cell is present, so every fetch of it answers the stored value (R44). -/
theorem fetchCell_of_storedIn {x k : Nat} {v : Word} (h : StoredIn s t x v) (hk : t.ip.toInt + k = x) :
    fetchCell t k = .ok v := by
  obtain ⟨hlen, hcell, -⟩ := h
  have hpresent : x < t.len := by omega
  rw [fetchCell_of_inside (by omega) (by omega), hk, Int.toNat_natCast, ← cell_of_present hpresent, hcell]

/-- `IP` past `i` does not wrap when the last cell of `i` is present. The word itself need not be: what resolves the
operands does not say that it was fetched. -/
theorem ipPast_cells {u : State} {i : Instr} (hinv : Invariant s) (hip : u.ip = s.ip)
    (hlast : s.ip.toInt + i.roles.length < s.len) : IpPast s (u.advance i.cells) i.cells := by
  obtain ⟨⟨-, hlimit, -⟩, hlen, -⟩ := hinv
  obtain ⟨hlow, -⟩ := toInt_bounds s.ip
  have hfits : Fits64 (u.ip.toInt + i.cells) := by
    simp only [Fits64, Instr.cells, minInt64, maxInt64, hip] at hlimit hlow ⊢
    omega
  rw [IpPast, advance_ip_toInt hfits, hip]

/-- Settles O26: the execution stores its value and moves `IP`, and the fetches after it read the state it leaves. -/
theorem storedWordRunsNext : Obligations.StoredWordRunsNext := by
  unfold Obligations.StoredWordRunsNext
  intro i m s x v hinv hrun hm hx hv
  obtain ⟨q, hexec⟩ := exec_of_storedValue hm hx hv
  obtain ⟨-, hlast, -, -⟩ := resolveWriteAddr_eq_ok hx
  have hstored := storedIn_memWrite hinv q x v i.cells
  refine ⟨_, hexec, hstored, ipPast_cells hinv rfl hlast, fun k hk => fetchCell_of_storedIn hstored hk,
    fun j hword hj => ?_⟩
  have hfetch := fetchCell_of_storedIn (k := 0) hstored (by simpa using hword)
  exact step_of_running hrun hfetch hj

/-! ## The host's reads -/

/-- No two values of `STATE` share a code (R15). -/
theorem RunState.code_eq_iff (r q : RunState) : (r.code : Int) = q.code ↔ r = q := by
  cases r <;> cases q <;> decide

/-- No two fault kinds share a code (R16). -/
theorem FaultKind.code_eq_iff (k l : FaultKind) : (k.code : Int) = l.code ↔ k = l := by
  cases k <;> cases l <;> decide

/-- The code 0 is no kind's (R16). -/
theorem FaultKind.code_ne_zero (k : FaultKind) : (k.code : Int) ≠ 0 := by
  cases k <;> decide

theorem faultCode_eq_zero_iff (s : State) : (s.faultCode : Int) = 0 ↔ s.fault = none := by
  cases h : s.fault with
  | none => simp [State.faultCode, h]
  | some k => simpa [State.faultCode, h] using k.code_ne_zero

theorem faultCode_eq_code_iff (s : State) (k : FaultKind) : (s.faultCode : Int) = k.code ↔ s.fault = some k := by
  cases h : s.fault with
  | none => simpa [State.faultCode, h] using k.code_ne_zero.symm
  | some l => simpa [State.faultCode, h] using l.code_eq_iff k

/-- Settles O44: each answer is read off the live state, which is handed back; the codes tell the values apart. -/
theorem hostReadsHaveNoEffect : Obligations.HostReadsHaveNoEffect := by
  unfold Obligations.HostReadsHaveNoEffect
  intro fuel s
  refine ⟨fun a => ⟨s.cell a, rfl, cell_of_present, cell_of_absent⟩, rfl, rfl, rfl, rfl, rfl,
    ⟨s.status.code, rfl, ?_⟩, s.faultCode, rfl, faultCode_eq_zero_iff s, ?_⟩
  · have hcode := s.status.code_eq_iff
    exact ⟨hcode .running, hcode .suspendedOnOutput, hcode .halted, hcode .faulted, hcode .awaitingMoreInput⟩
  · have hcode := faultCode_eq_code_iff s
    exact ⟨hcode .decodeFault, hcode .invalidWriteTarget, hcode .inputExhausted, hcode .addressFault,
      hcode .startupParseFault, hcode .arithmeticOverflow, hcode .capacityFault⟩

end Sys2Proof.Machine
end

section
/-! PROOFS. The encoding (spec/30_encoding.md R50 to R62) and the decoder (spec/40_decode_and_operands.md R70). What
decodes is read off one fact: a word decodes to an instruction exactly when it is that instruction's `encode`. The digits
of a word and the modes of an instruction are then related by lists of modes of one length. -/

namespace Sys2Proof

/-! ## The opcode, the roles and the modes of an instruction -/

/-- The opcode fixes the number of operands (R54, R60). -/
theorem Instr.operandCount_opcode (i : Instr) : operandCount i.opcode = some i.roles.length := by cases i <;> rfl

/-- One mode per operand (R22). -/
theorem Instr.length_modes (i : Instr) : i.modes.length = i.roles.length := by cases i <;> rfl

theorem Instr.write_mem_roles_iff (i : Instr) : .write ∈ i.roles ↔ i.writeMode ≠ none := by
  cases i <;> simp [Instr.roles, Instr.writeMode]

/-- The write operand is the last one, in the roles and in the modes (R54). -/
theorem Instr.getLast?_of_writeMode {i : Instr} {m : Mode} (h : i.writeMode = some m) :
    i.roles.getLast? = some .write ∧ i.modes.getLast? = some m := by
  cases i with
  | add | multiply | jumpLt | jumpEq | input => cases h; exact ⟨rfl, rfl⟩
  | output | jumpIfNz | jumpIfZ | adjRelBase | exit => cases h

/-- Every opcode has an instruction for each choice of its modes (R53, R54). -/
theorem exists_instr_of_operandCount {op : Nat} {ms : List Mode} (h : operandCount op = some ms.length) :
    ∃ i : Instr, i.opcode = op ∧ i.modes = ms := by
  unfold operandCount at h
  split at h
  · match ms, h with | [a, b, d], _ => exact ⟨.add a b d, rfl, rfl⟩
  · match ms, h with | [a, b, d], _ => exact ⟨.multiply a b d, rfl, rfl⟩
  · match ms, h with | [a, b, d], _ => exact ⟨.jumpLt a b d, rfl, rfl⟩
  · match ms, h with | [a, b, d], _ => exact ⟨.jumpEq a b d, rfl, rfl⟩
  · match ms, h with | [a, t], _ => exact ⟨.jumpIfNz a t, rfl, rfl⟩
  · match ms, h with | [a, t], _ => exact ⟨.jumpIfZ a t, rfl, rfl⟩
  · match ms, h with | [d], _ => exact ⟨.input d, rfl, rfl⟩
  · match ms, h with | [a], _ => exact ⟨.output a, rfl, rfl⟩
  · match ms, h with | [a], _ => exact ⟨.adjRelBase a, rfl, rfl⟩
  · match ms, h with | [], _ => exact ⟨.exit, rfl, rfl⟩
  · cases h

/-! ## Decoding inverts encoding -/

theorem decodeWord_encode (i : Instr) : decodeWord (encode i) = .ok i := by
  cases i with
  | add a b d => exact Laws.RoundTrip.add a b d
  | multiply a b d => exact Laws.RoundTrip.multiply a b d
  | input d => exact Laws.RoundTrip.input d
  | output a => exact Laws.RoundTrip.output a
  | jumpIfNz a t => exact Laws.RoundTrip.jumpIfNz a t
  | jumpIfZ a t => exact Laws.RoundTrip.jumpIfZ a t
  | jumpLt a b d => exact Laws.RoundTrip.jumpLt a b d
  | jumpEq a b d => exact Laws.RoundTrip.jumpEq a b d
  | adjRelBase a => exact Laws.RoundTrip.adjRelBase a
  | exit => exact Laws.RoundTrip.exit

/-! A number whose upper digits decode under the opcode of its two low digits has the value of R51. -/

section
variable {n op : Nat} {i : Instr} (hop : n % 100 = op)
include hop

theorem value_of_decode1 {f : Mode → Instr} (hf : ∀ m, (f m).opcode = op ∧ (f m).modes = [m])
    (h : decode1 f (n / 100) = .ok i) : n = i.opcode + 100 * modeDigits i.modes := by
  obtain ⟨m, hrest, rfl⟩ := decode1_eq_ok.mp h
  simp only [hf, modeDigits]
  omega

theorem value_of_decode2 {f : Mode → Mode → Instr} (hf : ∀ m1 m2, (f m1 m2).opcode = op ∧ (f m1 m2).modes = [m1, m2])
    (h : decode2 f (n / 100) = .ok i) : n = i.opcode + 100 * modeDigits i.modes := by
  obtain ⟨m1, m2, hrest, rfl⟩ := decode2_eq_ok.mp h
  simp only [hf, modeDigits]
  omega

theorem value_of_decode3 {f : Mode → Mode → Mode → Instr}
    (hf : ∀ m1 m2 m3, (f m1 m2 m3).opcode = op ∧ (f m1 m2 m3).modes = [m1, m2, m3])
    (h : decode3 f (n / 100) = .ok i) : n = i.opcode + 100 * modeDigits i.modes := by
  obtain ⟨m1, m2, m3, hrest, rfl⟩ := decode3_eq_ok.mp h
  simp only [hf, modeDigits]
  omega

end

/-- The value of a word that decodes is the one R51 gives its instruction. -/
theorem toNat_of_decodeWord {w : Word} {i : Instr} (h : decodeWord w = .ok i) :
    w.toNat = i.opcode + 100 * modeDigits i.modes := by
  unfold decodeWord at h
  split at h
  · cases h
  · dsimp only at h
    split at h
    · next hop => exact value_of_decode3 hop (fun _ _ _ => ⟨rfl, rfl⟩) h
    · next hop => exact value_of_decode3 hop (fun _ _ _ => ⟨rfl, rfl⟩) h
    · next hop => exact value_of_decode1 hop (fun _ => ⟨rfl, rfl⟩) h
    · next hop => exact value_of_decode1 hop (fun _ => ⟨rfl, rfl⟩) h
    · next hop => exact value_of_decode2 hop (fun _ _ => ⟨rfl, rfl⟩) h
    · next hop => exact value_of_decode2 hop (fun _ _ => ⟨rfl, rfl⟩) h
    · next hop => exact value_of_decode3 hop (fun _ _ _ => ⟨rfl, rfl⟩) h
    · next hop => exact value_of_decode3 hop (fun _ _ _ => ⟨rfl, rfl⟩) h
    · next hop => exact value_of_decode1 hop (fun _ => ⟨rfl, rfl⟩) h
    · next hop =>
      obtain ⟨hrest, rfl⟩ := noSurplus_eq_ok.mp h
      simp only [Instr.opcode, Instr.modes, modeDigits]
      omega
    · cases h

theorem eq_encode_iff {w : Word} {i : Instr} : w = encode i ↔ w.toNat = i.opcode + 100 * modeDigits i.modes := by
  rw [← BitVec.toNat_inj, encode_toNat]

theorem decodeWord_eq_ok_iff {w : Word} {i : Instr} : decodeWord w = .ok i ↔ w = encode i := by
  constructor
  · intro h
    exact eq_encode_iff.mpr (toNat_of_decodeWord h)
  · rintro rfl
    exact decodeWord_encode i

/-- Settles O1: the word that decodes to `i` has the value of `encode i`, and `encode i` decodes to `i`. -/
theorem decodeExactlyInvertsEncode : Obligations.DecodeExactlyInvertsEncode := by
  unfold Obligations.DecodeExactlyInvertsEncode
  exact fun _ _ => decodeWord_eq_ok_iff

/-! ## The digits of a word -/

/-- The digits 0, 1 and 2 are those that stand for a mode (R55, R56). -/
theorem Mode.le_two_iff_exists_digit {d : Nat} : d ≤ 2 ↔ ∃ m : Mode, d = m.digit := by
  constructor
  · intro h
    cases hm : Mode.ofDigit d with
    | none => have := Mode.ofDigit_eq_none.mp hm; omega
    | some m => exact ⟨m, Mode.ofDigit_eq_some hm⟩
  · rintro ⟨m, rfl⟩
    exact m.digit_le

/-- A number of `n` digits, each 0, 1 or 2, is the number of a list of `n` modes (R51, R55). -/
theorem exists_modeDigits_iff {n d : Nat} :
    (∃ ms : List Mode, ms.length = n ∧ d = modeDigits ms) ↔ (∀ k < n, d / 10 ^ k % 10 ≤ 2) ∧ d / 10 ^ n = 0 := by
  induction n generalizing d with
  | zero => simp [modeDigits]
  | succ n ih =>
    have hshift : ∀ k, d / 10 ^ (k + 1) = d / 10 / 10 ^ k := fun k => by rw [pow_succ', Nat.div_div_eq_div_mul]
    rw [Nat.forall_lt_succ_left, and_assoc]
    simp only [hshift, ← ih, pow_zero, Nat.div_one]
    rw [Mode.le_two_iff_exists_digit]
    constructor
    · rintro ⟨ms, hlen, hd⟩
      match ms, hlen with
      | m :: ms, hlen =>
        have hm := m.digit_le
        rw [modeDigits] at hd
        exact ⟨⟨m, by omega⟩, ms, Nat.succ.inj hlen, by omega⟩
    · rintro ⟨⟨m, hm⟩, ms, hlen, hd⟩
      exact ⟨m :: ms, congrArg (· + 1) hlen, by rw [modeDigits]; omega⟩

/-- The two low digits of an encoded word are its opcode, and the digits above them its modes (R51). -/
theorem eq_encode_iff_digits {w : Word} {i : Instr} :
    w = encode i ↔ i.opcode = w.toNat % 100 ∧ w.toNat / 100 = modeDigits i.modes := by
  have hlt := i.opcode_lt
  rw [eq_encode_iff]
  omega

/-- Digit `k + 2` of a word is digit `k` of the number above its opcode. -/
theorem div_pow_add_two (v k : Nat) : v / 10 ^ (k + 2) = v / 100 / 10 ^ k := by
  rw [Nat.div_div_eq_div_mul, pow_add, mul_comm]
  norm_num

/-- Settles O2: the modes of a word with legal digits are a list, and its opcode has an instruction with these modes. -/
theorem wordDecodesIffDigitsLegal : Obligations.WordDecodesIffDigitsLegal := by
  unfold Obligations.WordDecodesIffDigitsLegal
  intro w
  simp only [decodeWord_eq_ok_iff, div_pow_add_two, ← exists_modeDigits_iff]
  constructor
  · rintro ⟨i, h⟩
    obtain ⟨hop, hmodes⟩ := eq_encode_iff_digits.mp h
    exact ⟨h ▸ encode_toInt_nonneg i, i.roles.length, hop ▸ i.operandCount_opcode, i.modes, i.length_modes,
      hmodes⟩
  · rintro ⟨-, n, hcount, ms, rfl, hms⟩
    obtain ⟨i, hop, rfl⟩ := exists_instr_of_operandCount hcount
    exact ⟨i, eq_encode_iff_digits.mpr ⟨hop, hms⟩⟩

/-! ## The greatest word -/

/-- No opcode below 99 is above 8, and 99 has no modes (R53, R62). -/
theorem encode_toNat_le (i : Instr) : (encode i).toNat ≤ 22208 := by
  have hmodes := modeDigits_modes_le i
  rw [encode_toNat]
  cases i with
  | exit => decide
  | adjRelBase a => have := a.digit_le; simp only [Instr.opcode, Instr.modes, modeDigits]; omega
  | add | multiply | input | output | jumpIfNz | jumpIfZ | jumpLt | jumpEq => simp only [Instr.opcode]; omega

/-- Settles O7: a word that decodes is an encoded word. -/
theorem decodedWordsAtMost22208 : Obligations.DecodedWordsAtMost22208 := by
  unfold Obligations.DecodedWordsAtMost22208
  intro w i h
  exact decodeWord_eq_ok_iff.mp h ▸ encode_toNat_le i

/-! ## Roles -/

/-- Settles O5: the roles are read off the table, and a write operand is the one `writeMode` names. -/
theorem operandRolesOfEveryOpcode : Obligations.OperandRolesOfEveryOpcode := by
  unfold Obligations.OperandRolesOfEveryOpcode
  refine ⟨fun _ _ _ => ⟨rfl, rfl, rfl, rfl, rfl, rfl, rfl, rfl, rfl, rfl⟩,
    fun i => ⟨i.write_mem_roles_iff, fun hwrite => ?_⟩⟩
  obtain ⟨m, hm⟩ := Option.ne_none_iff_exists'.mp ((i.write_mem_roles_iff).mp hwrite)
  exact hm ▸ Instr.getLast?_of_writeMode hm

/-! ## Illegal digits -/

/-- A consumed digit above 2 stands for no mode, so its word is no instruction (R56). -/
theorem decodeWord_error_of_illegal_digit {w : Word} {n k : Nat} (hcount : operandCount (w.toNat % 100) = some n)
    (hk : k < n) (hdigit : 3 ≤ w.toNat / 10 ^ (k + 2) % 10) : ∃ e, decodeWord w = .error e := by
  cases hd : decodeWord w with
  | error e => exact ⟨e, rfl⟩
  | ok i =>
    obtain ⟨-, n', hcount', hlegal, -⟩ := (wordDecodesIffDigitsLegal w).mp ⟨i, hd⟩
    obtain rfl : n' = n := Option.some.inj (hcount'.symm.trans hcount)
    have := hlegal k hk
    omega

end Sys2Proof

namespace Sys2Proof.Machine

/-! ## Fetching and decoding -/

/-- Only the word at `IP` takes part in decoding (R60). -/
theorem fetchInstr_congr {s t : State} (h : fetchCell s 0 = fetchCell t 0) : fetchInstr s = fetchInstr t := by
  simp only [fetchInstr, h]

/-- Settles O4: the low digits of a decoded word are its instruction's opcode, which fixes the operands. -/
theorem opcodeAloneFixesLength : Obligations.OpcodeAloneFixesLength := by
  unfold Obligations.OpcodeAloneFixesLength
  refine ⟨fun w i h => ⟨?_, i.length_modes, rfl⟩, fun s t => fetchInstr_congr⟩
  obtain ⟨hop, -⟩ := eq_encode_iff_digits.mp (decodeWord_eq_ok_iff.mp h)
  exact hop ▸ i.operandCount_opcode

/-- A step at a word that is no instruction is a decode fault (R171, R180). -/
theorem step_of_no_instr {s : State} {w : Word} {e : DecodeError} (h : Runnable s) (hw : fetchCell s 0 = .ok w)
    (he : decodeWord w = .error e) : step s = .next ((s.setStatus .running).takeFault .decodeFault) := by
  rw [← fetchCell_setStatus s .running] at hw
  simp only [step_of_runnable h, runOne, fetchInstr_of_no_instr hw he, settle_error]

/-- Settles O3: a word with an illegal digit does not decode, an instruction with mode 1 on its write operand does. -/
theorem consumedDigitAboveTwoFaults : Obligations.ConsumedDigitAboveTwoFaults := by
  unfold Obligations.ConsumedDigitAboveTwoFaults
  refine ⟨fun w n k hcount hk hdigit s hs hw => ?_, fun i _ =>
    ⟨decodeWord_encode i, fun s c hc => resolveWriteAddr_of_cell hc .immediate⟩⟩
  obtain ⟨e, he⟩ := decodeWord_error_of_illegal_digit hcount hk hdigit
  exact ⟨_, step_of_no_instr hs hw he, rfl, rfl, rfl⟩

end Sys2Proof.Machine
end

section
/-! PROOFS. The operand resolvers mode by mode (spec/40_decode_and_operands.md R71, R72), and the step at a word that
decodes (R74). -/

namespace Sys2Proof.Machine

variable {s : State}

/-! ## The effective address -/

/-- Mode 0 or 2 reads the tape at the exact address, mode 2 with `RB` added to the operand cell (R71). -/
theorem resolveRead_of_effective_address {k : Nat} {m : Mode} {c : Word} {z : Int} (hc : fetchCell s k = .ok c)
    (hz : (m = .position ∧ z = c.toInt) ∨ (m = .relative ∧ z = c.toInt + s.rb.toInt)) :
    resolveRead s k m = memRead s z := by
  rw [resolveRead_of_cell hc]
  rcases hz with ⟨rfl, rfl⟩ | ⟨rfl, rfl⟩ <;> rfl

/-- Mode 0 or 2 checks the same exact address for a store (R72). -/
theorem resolveWriteAddr_of_effective_address {k : Nat} {m : Mode} {c : Word} {z : Int} (hc : fetchCell s k = .ok c)
    (hz : (m = .position ∧ z = c.toInt) ∨ (m = .relative ∧ z = c.toInt + s.rb.toInt)) :
    resolveWriteAddr s k m = writeAddress s z := by
  rw [resolveWriteAddr_of_cell hc]
  rcases hz with ⟨rfl, rfl⟩ | ⟨rfl, rfl⟩ <;> rfl

/-! ## Data reads inside and beyond the tape -/

theorem memRead_of_present {z : Int} (h0 : 0 ≤ z) (hlen : z < s.len) (hmax : z ≤ maxInt64) :
    memRead s z = .ok (s.tape.read z.toNat) := by
  rw [memRead_of_address h0 hmax, cell_of_present (by omega)]

/-- A read at or beyond `LEN` answers 0 (R33). -/
theorem memRead_of_absent {z : Int} (hlen : (s.len : Int) ≤ z) (h0 : 0 ≤ z) (hmax : z ≤ maxInt64) :
    memRead s z = .ok 0#64 := by
  rw [memRead_of_address h0 hmax, cell_of_absent (by omega)]

/-! ## The resolvers -/

/-- Settles O9: the operand cell's fetch decides first, then the data read at the effective address. -/
theorem resolveReadInEveryMode : Obligations.ResolveReadInEveryMode := by
  unfold Obligations.ResolveReadInEveryMode
  refine fun s k => ⟨fun m e he => ?_, fun c hc => ⟨resolveRead_of_cell hc .immediate, fun m z hz => ?_⟩⟩
  · obtain ⟨rfl, -⟩ := fetchCell_eq_error he
    exact resolveRead_of_no_cell he m
  · rw [resolveRead_of_effective_address hc hz]
    exact ⟨fun h => memRead_of_no_address (.inl h), fun h => memRead_of_no_address (.inr h),
      memRead_of_present, memRead_of_absent⟩

/-- Settles O10: the operand cell's fetch decides first, then the write checks on the effective address. -/
theorem resolveWriteAddrInEveryMode : Obligations.ResolveWriteAddrInEveryMode := by
  unfold Obligations.ResolveWriteAddrInEveryMode
  refine fun s k => ⟨fun m e he => ?_, fun c hc => ⟨resolveWriteAddr_of_cell hc .immediate, fun m z hz => ?_⟩⟩
  · obtain ⟨rfl, -⟩ := fetchCell_eq_error he
    exact resolveWriteAddr_of_no_cell he m
  · rw [resolveWriteAddr_of_effective_address hc hz]
    exact ⟨fun h => writeAddress_of_no_address (.inl h), fun h => writeAddress_of_no_address (.inr h),
      writeAddress_of_beyond_limit, writeAddress_of_address⟩

/-! ## The step -/

/-- Settles O27: where the word at `IP` decodes, a step is `exec` of its instruction in Running. -/
theorem stepRunsDecodedInstruction : Obligations.StepRunsDecodedInstruction := by
  unfold Obligations.StepRunsDecodedInstruction
  exact fun s w i => step_of_word

end Sys2Proof.Machine
end

section
/-! PROOFS. Add and Multiply (spec/41_arithmetic.md R90 to R93): what the phases they share answer, check by check in the
order of R179, the rule of both instructions from those answers, and Add on overlapping cells. -/

namespace Sys2Proof

/-- The word of an instruction with three operands (R51). -/
theorem encode_toNat_of_three_modes {i : Instr} {m1 m2 m3 : Mode} (hmodes : i.modes = [m1, m2, m3]) :
    (encode i).toNat = 10000 * m3.digit + 1000 * m2.digit + 100 * m1.digit + i.opcode := by
  rw [encode_toNat, hmodes]
  simp only [modeDigits]
  omega

end Sys2Proof

namespace Sys2Proof.Machine

variable {s : State}

/-! ## The two ends of an execution -/

/-- An execution whose check phase raises `k` enters that fault and nothing else (R180). -/
theorem raises_of_settle_error {i : Instr} {r : Except FaultKind State} {k : FaultKind} (hexec : exec i s = settle s r)
    (hr : r = .error k) : Raises i s k :=
  ⟨s.takeFault k, by rw [hexec, hr, settle_error], faulted_takeFault s k⟩

/-- The commit of an instruction that stores through its third operand: the store, `IP` past the four cells, and all else
as it was. -/
theorem commit_of_third_operand (hinv : Invariant s) {i : Instr} {m : Mode} {x : Nat} (hroles : i.roles.length = 3)
    (hx : resolveWriteAddr s 3 m = .ok x) (v : Word) :
    StoredIn s ((s.memWrite x v).advance 4) x v ∧ IpPast s ((s.memWrite x v).advance 4) 4 ∧
      OthersKept s ((s.memWrite x v).advance 4) := by
  have hcells : i.cells = 4 := by rw [Instr.cells, hroles]
  obtain ⟨-, hlast, -, -⟩ := resolveWriteAddr_eq_ok hx
  have hip := ipPast_cells (u := s.memWrite x v) hinv rfl (hroles ▸ hlast)
  rw [hcells] at hip
  exact ⟨hinv.storedIn_memWrite x v, hip, rfl, rfl, rfl, rfl, rfl, rfl⟩

/-! ## The phases Add and Multiply share, by the first check that fails -/

section
variable {f : Int → Int → Int} {m1 m2 m3 : Mode} {a b : Word} {k : FaultKind}

theorem arithmetic_of_first_read_error (ha : resolveRead s 1 m1 = .error k) :
    arithmetic f m1 m2 m3 s = .error k := by
  simp only [arithmetic, ha, bind, Except.bind]

theorem arithmetic_of_second_read_error (ha : resolveRead s 1 m1 = .ok a) (hb : resolveRead s 2 m2 = .error k) :
    arithmetic f m1 m2 m3 s = .error k := by
  simp only [arithmetic, ha, hb, bind, Except.bind]

/-- The range of the result is checked before the write operand (R92, D14). -/
theorem arithmetic_of_overflow (ha : resolveRead s 1 m1 = .ok a) (hb : resolveRead s 2 m2 = .ok b)
    (hf : ¬ Fits64 (f a.toInt b.toInt)) : arithmetic f m1 m2 m3 s = .error .arithmeticOverflow := by
  simp only [arithmetic, ha, hb, narrow_of_not_fits hf, bind, Except.bind]

theorem arithmetic_of_write_error (ha : resolveRead s 1 m1 = .ok a) (hb : resolveRead s 2 m2 = .ok b)
    (hf : Fits64 (f a.toInt b.toInt)) (hx : resolveWriteAddr s 3 m3 = .error k) :
    arithmetic f m1 m2 m3 s = .error k := by
  simp only [arithmetic, ha, hb, narrow_of_fits hf, hx, bind, Except.bind]

theorem arithmetic_of_checks_passed {x : Nat} (ha : resolveRead s 1 m1 = .ok a) (hb : resolveRead s 2 m2 = .ok b)
    (hf : Fits64 (f a.toInt b.toInt)) (hx : resolveWriteAddr s 3 m3 = .ok x) :
    arithmetic f m1 m2 m3 s = .ok ((s.memWrite x (BitVec.ofInt 64 (f a.toInt b.toInt))).advance 4) := by
  simp only [arithmetic, ha, hb, narrow_of_fits hf, hx, bind, Except.bind]

end

/-! ## The rule of both -/

/-- Every three-operand instruction that is executed by the shared phases keeps the rule of R90 and R91. -/
theorem arithmeticRule_of_exec {i : Mode → Mode → Mode → Instr} {opcode : Nat} {f : Int → Int → Int}
    (hopcode : ∀ m1 m2 m3, (i m1 m2 m3).opcode = opcode) (hmodes : ∀ m1 m2 m3, (i m1 m2 m3).modes = [m1, m2, m3])
    (hexec : ∀ m1 m2 m3 s, exec (i m1 m2 m3) s = settle s (arithmetic f m1 m2 m3 s)) :
    ArithmeticRule i opcode f := by
  intro m1 m2 m3 s hinv
  have hexec := hexec m1 m2 m3 s
  have hmodes := hmodes m1 m2 m3
  refine ⟨hopcode m1 m2 m3 ▸ encode_toNat_of_three_modes hmodes, fun a b x ha hb hf hx => ?completes,
    fun k ha => raises_of_settle_error hexec (arithmetic_of_first_read_error ha),
    fun a k ha hb => raises_of_settle_error hexec (arithmetic_of_second_read_error ha hb),
    fun a b ha hb hf => raises_of_settle_error hexec (arithmetic_of_overflow ha hb hf),
    fun a b k ha hb hf hx => raises_of_settle_error hexec (arithmetic_of_write_error ha hb hf hx)⟩
  case completes =>
    have hroles : (i m1 m2 m3).roles.length = 3 := by rw [← Instr.length_modes, hmodes]; rfl
    refine ⟨_, BitVec.ofInt 64 (f a.toInt b.toInt), ?_, toInt_ofInt_of_fits hf,
      commit_of_third_operand hinv hroles hx _⟩
    rw [hexec, arithmetic_of_checks_passed ha hb hf hx, settle_ok]

/-- Settles O13: Add is executed by the shared phases with the sum. -/
theorem addStoresExactSum : Obligations.AddStoresExactSum := by
  unfold Obligations.AddStoresExactSum
  exact arithmeticRule_of_exec (fun _ _ _ => rfl) (fun _ _ _ => rfl) (fun _ _ _ _ => rfl)

/-- Settles O14: Multiply is executed by the shared phases with the product. -/
theorem multiplyStoresExactProduct : Obligations.MultiplyStoresExactProduct := by
  unfold Obligations.MultiplyStoresExactProduct
  exact arithmeticRule_of_exec (fun _ _ _ => rfl) (fun _ _ _ => rfl) (fun _ _ _ _ => rfl)

/-! ## Overlapping cells -/

/-- A position operand whose cell holds an address reads the cell there (R71). -/
theorem resolveRead_position {k : Nat} {c : Word} (hc : fetchCell s k = .ok c) (h0 : 0 ≤ c.toInt) :
    resolveRead s k .position = .ok (s.cell c.toInt.toNat) := by
  rw [resolveRead_of_effective_address hc (.inl ⟨rfl, rfl⟩), memRead_of_address h0 (toInt_bounds c).2]

/-- A position operand whose cell holds an address below `TAPE_LIMIT` names the cell there for a store (R72). -/
theorem resolveWriteAddr_position {k : Nat} {c : Word} (hc : fetchCell s k = .ok c) (h0 : 0 ≤ c.toInt)
    (hlimit : c.toInt < s.cfg.tapeLimit) : resolveWriteAddr s k .position = .ok c.toInt.toNat := by
  rw [resolveWriteAddr_of_effective_address hc (.inl ⟨rfl, rfl⟩),
    writeAddress_of_address h0 (toInt_bounds c).2 hlimit]

/-- Settles O25: both operands resolve to the old value of cell `c` and the destination to `c`, so the rule of Add stores
twice that value there. -/
theorem overlappingAddReadsOldValues : Obligations.OverlappingAddReadsOldValues := by
  unfold Obligations.OverlappingAddReadsOldValues
  intro s c hinv h1 h2 h3 h0 hlimit hfits
  rw [two_mul] at hfits ⊢
  obtain ⟨-, hcompletes, -⟩ := addStoresExactSum .position .position .position s hinv
  obtain ⟨t, r, hexec, hr, ⟨-, hcell, hothers⟩, -⟩ := hcompletes _ _ _ (resolveRead_position h1 h0)
    (resolveRead_position h2 h0) hfits (resolveWriteAddr_position h3 h0 hlimit)
  exact ⟨t, hexec, by rw [hcell, hr], hothers⟩

end Sys2Proof.Machine
end

section
/-! PROOFS. Input and Output (spec/42_io.md R100, R101): what the phases of each answer, check by check in the order of
R179, and the rule of each from those answers. -/

namespace Sys2Proof

/-- The word of an instruction with one operand (R51). -/
theorem encode_toNat_of_one_mode {i : Instr} {m1 : Mode} (hmodes : i.modes = [m1]) :
    (encode i).toNat = 100 * m1.digit + i.opcode := by
  rw [encode_toNat, hmodes]
  simp only [modeDigits]
  omega

end Sys2Proof

namespace Sys2Proof.Machine

variable {s : State} {m1 : Mode} {a v : Word} {rest : List Word} {k : FaultKind}

/-- `IP` past an instruction with one operand, whose cell is present. -/
theorem ipPast_of_one_operand {u : State} {i : Instr} (hinv : Invariant s) (hroles : i.roles.length = 1)
    (hip : u.ip = s.ip) (hlast : s.ip.toInt + (1 : Nat) < s.len) : IpPast s (u.advance 2) 2 := by
  have hcells : i.cells = 2 := by rw [Instr.cells, hroles]
  exact hcells ▸ ipPast_cells hinv hip (hroles ▸ hlast)

/-! ## Input, by the first check that fails -/

/-- The queue is examined before the write operand (R100, D14). -/
theorem inputPhases_of_empty_queue (hq : s.inq = []) : inputPhases m1 s = .error .inputExhausted := by
  simp only [inputPhases, popInput, hq, bind, Except.bind]

theorem inputPhases_of_write_error (hq : s.inq = v :: rest) (hx : resolveWriteAddr s 1 m1 = .error k) :
    inputPhases m1 s = .error k := by
  simp only [inputPhases, popInput, hq, hx, bind, Except.bind]

theorem inputPhases_of_checks_passed {x : Nat} (hq : s.inq = v :: rest) (hx : resolveWriteAddr s 1 m1 = .ok x) :
    inputPhases m1 s = .ok (((s.setInq rest).memWrite x v).advance 2) := by
  simp only [inputPhases, popInput, hq, hx, bind, Except.bind]

/-- Settles O18: the commit pops, stores and moves `IP`; a fault of either check keeps the queue. -/
theorem inputPopsQueueIntoDest : Obligations.InputPopsQueueIntoDest := by
  unfold Obligations.InputPopsQueueIntoDest
  intro m1 s hinv
  have hexec : exec (.input m1) s = settle s (inputPhases m1 s) := rfl
  refine ⟨encode_toNat_of_one_mode rfl, fun v rest x hq hx => ?completes,
    fun hq => raises_of_settle_error hexec (inputPhases_of_empty_queue hq),
    fun v rest k hq hx => raises_of_settle_error hexec (inputPhases_of_write_error hq hx)⟩
  case completes =>
    obtain ⟨-, hlast, -, -⟩ := resolveWriteAddr_eq_ok hx
    refine ⟨((s.setInq rest).memWrite x v).advance 2, ?_, storedIn_memWrite hinv rest x v 2, rfl,
      ipPast_of_one_operand (i := .input m1) hinv rfl rfl hlast, rfl, rfl, rfl, rfl, rfl⟩
    rw [hexec, inputPhases_of_checks_passed hq hx, settle_ok]

/-! ## Output, by its one check -/

theorem outputPhases_of_read_error (ha : resolveRead s 1 m1 = .error k) : outputPhases m1 s = .error k := by
  simp only [outputPhases, ha, bind, Except.bind]

theorem outputPhases_of_check_passed (ha : resolveRead s 1 m1 = .ok a) :
    outputPhases m1 s = .ok (((s.setOut a).setStatus .suspendedOnOutput).advance 2) := by
  simp only [outputPhases, ha, bind, Except.bind]

/-- A machine suspended on output was left by a step that yielded `OUT` (R142, R101). -/
theorem stepResult_of_suspended (h : s.status = .suspendedOnOutput) : stepResult s = .yielded s.out := by
  simp only [stepResult, h]

/-- Settles O19: the commit sets `OUT` and `STATE`, from which the step's result is read, and moves `IP`. -/
theorem outputYieldsAndSuspends : Obligations.OutputYieldsAndSuspends := by
  unfold Obligations.OutputYieldsAndSuspends
  intro m1 s hinv
  have hexec : exec (.output m1) s = settle s (outputPhases m1 s) := rfl
  refine ⟨encode_toNat_of_one_mode rfl, fun a ha => ?completes,
    fun k ha => raises_of_settle_error hexec (outputPhases_of_read_error ha)⟩
  case completes =>
    obtain ⟨-, hlast⟩ := resolveRead_eq_ok ha
    refine ⟨((s.setOut a).setStatus .suspendedOnOutput).advance 2, ?_, rfl, rfl, stepResult_of_suspended rfl,
      ipPast_of_one_operand (i := .output m1) hinv rfl rfl hlast, ⟨rfl, fun _ => rfl⟩, rfl, rfl, rfl, rfl⟩
    rw [hexec, outputPhases_of_check_passed ha, settle_ok]

end Sys2Proof.Machine
end

section
/-! PROOFS. The conditional jumps (spec/43_jumps.md R110 to R112): what the phases they share answer, check by check,
the rule of both from those answers, and the fetch that follows a taken jump. -/

namespace Sys2Proof

/-- The word of an instruction with two operands (R51). -/
theorem encode_toNat_of_two_modes {i : Instr} {m1 m2 : Mode} (hmodes : i.modes = [m1, m2]) :
    (encode i).toNat = 1000 * m2.digit + 100 * m1.digit + i.opcode := by
  rw [encode_toNat, hmodes]
  simp only [modeDigits]
  omega

end Sys2Proof

namespace Sys2Proof.Machine

variable {s : State} {m1 m2 : Mode} {a target : Word} {k : FaultKind} {taken : Word → Bool}

/-! ## The phases the jumps share: both operands are resolved before the test (R73, D15) -/

theorem jumpWhen_of_first_read_error (ha : resolveRead s 1 m1 = .error k) :
    jumpWhen taken m1 m2 s = .error k := by
  simp only [jumpWhen, ha, bind, Except.bind]

theorem jumpWhen_of_second_read_error (ha : resolveRead s 1 m1 = .ok a) (ht : resolveRead s 2 m2 = .error k) :
    jumpWhen taken m1 m2 s = .error k := by
  simp only [jumpWhen, ha, ht, bind, Except.bind]

theorem jumpWhen_of_checks_passed (ha : resolveRead s 1 m1 = .ok a) (ht : resolveRead s 2 m2 = .ok target) :
    jumpWhen taken m1 m2 s = .ok (if taken a then s.setIp target else s.advance 3) := by
  simp only [jumpWhen, ha, ht, bind, Except.bind]

/-! ## The rule of both -/

/-- Every two-operand instruction that is executed by the shared phases with a test for `p` keeps the rule of R110 and
R111. -/
theorem jumpRule_of_exec {i : Mode → Mode → Instr} {opcode : Nat} {p : Int → Prop}
    (hopcode : ∀ m1 m2, (i m1 m2).opcode = opcode) (hmodes : ∀ m1 m2, (i m1 m2).modes = [m1, m2])
    (hexec : ∀ m1 m2 s, exec (i m1 m2) s = settle s (jumpWhen taken m1 m2 s))
    (htest : ∀ a, taken a = true ↔ p a.toInt) : JumpRule i opcode p := by
  intro m1 m2 s hinv
  have hexec := hexec m1 m2 s
  have hmodes := hmodes m1 m2
  refine ⟨hopcode m1 m2 ▸ encode_toNat_of_two_modes hmodes, fun a target ha ht => ?completes,
    fun k ha => raises_of_settle_error hexec (jumpWhen_of_first_read_error ha),
    fun a k ha ht => raises_of_settle_error hexec (jumpWhen_of_second_read_error ha ht)⟩
  case completes =>
    rw [hexec, jumpWhen_of_checks_passed ha ht, settle_ok]
    by_cases hp : p a.toInt
    · rw [if_pos ((htest a).mpr hp)]
      exact ⟨s.setIp target, rfl, fun _ => rfl, fun h => absurd hp h, ⟨rfl, fun _ => rfl⟩, rfl, rfl, rfl, rfl, rfl, rfl⟩
    · rw [if_neg (mt (htest a).mp hp)]
      have hroles : (i m1 m2).roles.length = 2 := by rw [← Instr.length_modes, hmodes]; rfl
      have hcells : (i m1 m2).cells = 3 := by rw [Instr.cells, hroles]
      obtain ⟨-, hlast⟩ := resolveRead_eq_ok ht
      have hip : IpPast s (s.advance 3) 3 := hcells ▸ ipPast_cells hinv rfl (hroles ▸ hlast)
      exact ⟨s.advance 3, rfl, fun h => absurd h hp, fun _ => hip, ⟨rfl, fun _ => rfl⟩, rfl, rfl, rfl, rfl, rfl, rfl⟩

theorem sameValue_zero_iff (a : Word) : sameValue a 0#64 = true ↔ a.toInt = 0 := by
  rw [sameValue, decide_eq_true_iff, BitVec.toInt_zero]

theorem not_sameValue_zero_iff (a : Word) : (!sameValue a 0#64) = true ↔ a.toInt ≠ 0 := by
  rw [Bool.not_eq_true', ← Bool.not_eq_true, sameValue_zero_iff]

/-- Settles O20: JumpIfNz is executed by the shared phases with the test for a nonzero value. -/
theorem jumpIfNzJumpsOnNonzero : Obligations.JumpIfNzJumpsOnNonzero := by
  unfold Obligations.JumpIfNzJumpsOnNonzero
  exact jumpRule_of_exec (fun _ _ => rfl) (fun _ _ => rfl) (fun _ _ _ => rfl) not_sameValue_zero_iff

/-- Settles O21: JumpIfZ is executed by the shared phases with the test for zero. -/
theorem jumpIfZJumpsOnZero : Obligations.JumpIfZJumpsOnZero := by
  unfold Obligations.JumpIfZJumpsOnZero
  exact jumpRule_of_exec (fun _ _ => rfl) (fun _ _ => rfl) (fun _ _ _ => rfl) sameValue_zero_iff

/-! ## The fetch after a taken jump -/

/-- A taken jump loads its target and does nothing else, whatever the target is (R112). -/
theorem exec_of_taken_jump {i : Instr} (h : (i = .jumpIfNz m1 m2 ∧ a ≠ 0#64) ∨ (i = .jumpIfZ m1 m2 ∧ a = 0#64))
    (ha : resolveRead s 1 m1 = .ok a) (ht : resolveRead s 2 m2 = .ok target) : exec i s = .next (s.setIp target) := by
  rcases h with ⟨rfl, hnz⟩ | ⟨rfl, hz⟩
  · have htaken : (!sameValue a 0#64) = true :=
      (not_sameValue_zero_iff a).mpr fun h => hnz (word_eq_of_toInt (h.trans BitVec.toInt_zero.symm))
    rw [exec, execJumpIfNz, jumpWhen_of_checks_passed ha ht, if_pos htaken, settle_ok]
  · have htaken : sameValue a 0#64 = true := (sameValue_zero_iff a).mpr (hz ▸ BitVec.toInt_zero)
    rw [exec, execJumpIfZ, jumpWhen_of_checks_passed ha ht, if_pos htaken, settle_ok]

/-- Settles O22: the jump leaves the tape and `LEN`, so the next fetch answers the old cell at the target, or finds that
there is none. -/
theorem targetCheckedByNextFetch : Obligations.TargetCheckedByNextFetch := by
  unfold Obligations.TargetCheckedByNextFetch
  intro m1 m2 s i a target htaken hs ha ht
  have hip : (s.setIp target).ip.toInt + (0 : Nat) = target.toInt := Int.add_zero _
  refine ⟨s.setIp target, exec_of_taken_jump htaken ha ht, rfl, rfl, rfl, fun h0 hlen => ?inside, fun hout => ?outside⟩
  case inside =>
    rw [fetchCell_of_inside (hip.symm ▸ h0) (hip.symm ▸ hlen), hip, State.setIp_tape]
  case outside =>
    have hfetch : fetchCell (s.setIp target) 0 = .error .addressFault := fetchCell_of_outside (hip.symm ▸ hout)
    exact ⟨_, step_of_no_cell hs hfetch, rfl, rfl, rfl⟩

end Sys2Proof.Machine
end

section
/-! PROOFS. The comparisons (spec/44_compare.md R120 to R122): what the phases they share answer, check by check in the
order of R179, the rule of both from those answers, and from the rule that neither jumps. -/

namespace Sys2Proof.Machine

variable {s : State} {m1 m2 m3 : Mode} {a b : Word} {x : Nat} {k : FaultKind} {test : Word → Word → Bool}

/-! ## The phases the comparisons share, by the first check that fails -/

theorem compareInto_of_first_read_error (ha : resolveRead s 1 m1 = .error k) :
    compareInto test m1 m2 m3 s = .error k := by
  simp only [compareInto, ha, bind, Except.bind]

theorem compareInto_of_second_read_error (ha : resolveRead s 1 m1 = .ok a) (hb : resolveRead s 2 m2 = .error k) :
    compareInto test m1 m2 m3 s = .error k := by
  simp only [compareInto, ha, hb, bind, Except.bind]

theorem compareInto_of_write_error (ha : resolveRead s 1 m1 = .ok a) (hb : resolveRead s 2 m2 = .ok b)
    (hx : resolveWriteAddr s 3 m3 = .error k) : compareInto test m1 m2 m3 s = .error k := by
  simp only [compareInto, ha, hb, hx, bind, Except.bind]

theorem compareInto_of_checks_passed (ha : resolveRead s 1 m1 = .ok a) (hb : resolveRead s 2 m2 = .ok b)
    (hx : resolveWriteAddr s 3 m3 = .ok x) :
    compareInto test m1 m2 m3 s = .ok ((s.memWrite x (truthWord (test a b))).advance 4) := by
  simp only [compareInto, ha, hb, hx, bind, Except.bind]

/-! ## The stored truth value -/

theorem truthWord_of_holds {c : Bool} (h : c = true) : truthWord c = 1#64 := if_pos h

theorem truthWord_of_fails {c : Bool} (h : c ≠ true) : truthWord c = 0#64 := if_neg h

theorem signedLess_iff (a b : Word) : signedLess a b = true ↔ a.toInt < b.toInt := decide_eq_true_iff

theorem sameValue_iff (a b : Word) : sameValue a b = true ↔ a.toInt = b.toInt := decide_eq_true_iff

/-! ## The rule of both -/

/-- Every three-operand instruction that is executed by the shared phases with a test for `p` keeps the rule of R120 and
R121. -/
theorem comparisonRule_of_exec {i : Mode → Mode → Mode → Instr} {opcode : Nat} {p : Int → Int → Prop}
    (hopcode : ∀ m1 m2 m3, (i m1 m2 m3).opcode = opcode) (hmodes : ∀ m1 m2 m3, (i m1 m2 m3).modes = [m1, m2, m3])
    (hexec : ∀ m1 m2 m3 s, exec (i m1 m2 m3) s = settle s (compareInto test m1 m2 m3 s))
    (htest : ∀ a b, test a b = true ↔ p a.toInt b.toInt) : ComparisonRule i opcode p := by
  intro m1 m2 m3 s hinv
  have hexec := hexec m1 m2 m3 s
  have hmodes := hmodes m1 m2 m3
  refine ⟨hopcode m1 m2 m3 ▸ encode_toNat_of_three_modes hmodes, fun a b x ha hb hx => ?completes,
    fun k ha => raises_of_settle_error hexec (compareInto_of_first_read_error ha),
    fun a k ha hb => raises_of_settle_error hexec (compareInto_of_second_read_error ha hb),
    fun a b k ha hb hx => raises_of_settle_error hexec (compareInto_of_write_error ha hb hx)⟩
  case completes =>
    have hroles : (i m1 m2 m3).roles.length = 3 := by rw [← Instr.length_modes, hmodes]; rfl
    refine ⟨_, truthWord (test a b), ?_, fun hp => truthWord_of_holds ((htest a b).mpr hp),
      fun hp => truthWord_of_fails (mt (htest a b).mp hp), commit_of_third_operand hinv hroles hx _⟩
    rw [hexec, compareInto_of_checks_passed ha hb hx, settle_ok]

/-- Settles O15: JumpLt is executed by the shared phases with the signed test for less. -/
theorem jumpLtStoresTruthOfLess : Obligations.JumpLtStoresTruthOfLess := by
  unfold Obligations.JumpLtStoresTruthOfLess
  exact comparisonRule_of_exec (fun _ _ _ => rfl) (fun _ _ _ => rfl) (fun _ _ _ _ => rfl) signedLess_iff

/-- Settles O16: JumpEq is executed by the shared phases with the test for equal values. -/
theorem jumpEqStoresTruthOfEqual : Obligations.JumpEqStoresTruthOfEqual := by
  unfold Obligations.JumpEqStoresTruthOfEqual
  exact comparisonRule_of_exec (fun _ _ _ => rfl) (fun _ _ _ => rfl) (fun _ _ _ _ => rfl) sameValue_iff

/-! ## The flow of control -/

/-- An execution that raises ends in Faulted (R180). -/
theorem Raises.status_eq_faulted {i : Instr} {t : State} (h : Raises i s k) (ht : exec i s = .next t) :
    t.status = .faulted := by
  obtain ⟨u, hu, hstatus, -⟩ := h
  obtain rfl : u = t := Host.Outcome.next.inj (hu.symm.trans ht)
  exact hstatus

/-- An instruction with the rule of a comparison that does not fault passed every check, so it stored a truth value and
went on behind its four cells. -/
theorem ComparisonRule.stores_and_continues {i : Mode → Mode → Mode → Instr} {opcode : Nat} {p : Int → Int → Prop}
    (hrule : ComparisonRule i opcode p) (hinv : Invariant s) {t : State} (ht : exec (i m1 m2 m3) s = .next t)
    (hok : t.status ≠ .faulted) :
    ∃ x r, resolveWriteAddr s 3 m3 = .ok x ∧ (r = 1#64 ∨ r = 0#64) ∧ StoredIn s t x r ∧ IpPast s t 4 := by
  obtain ⟨-, hcompletes, hfirst, hsecond, hwrite⟩ := hrule m1 m2 m3 s hinv
  cases ha : resolveRead s 1 m1 with
  | error k => exact absurd ((hfirst k ha).status_eq_faulted ht) hok
  | ok a =>
  cases hb : resolveRead s 2 m2 with
  | error k => exact absurd ((hsecond a k ha hb).status_eq_faulted ht) hok
  | ok b =>
  cases hx : resolveWriteAddr s 3 m3 with
  | error k => exact absurd ((hwrite a b k ha hb hx).status_eq_faulted ht) hok
  | ok x =>
    obtain ⟨u, r, hu, hone, hzero, hstored, hip, -⟩ := hcompletes a b x ha hb hx
    obtain rfl : u = t := Host.Outcome.next.inj (hu.symm.trans ht)
    exact ⟨x, r, rfl, (Classical.em (p a.toInt b.toInt)).imp hone hzero, hstored, hip⟩

/-- Settles O17: both instructions keep the rule of a comparison. -/
theorem comparisonsNeverJump : Obligations.ComparisonsNeverJump := by
  unfold Obligations.ComparisonsNeverJump
  rintro m1 m2 m3 i s t (rfl | rfl) hinv - ht hok
  · exact jumpLtStoresTruthOfLess.stores_and_continues hinv ht hok
  · exact jumpEqStoresTruthOfEqual.stores_and_continues hinv ht hok

end Sys2Proof.Machine
end

section
/-! PROOFS. AdjRelBase and Exit (spec/45_base_and_exit.md R130, R131): what the phases of AdjRelBase answer, check by
check in the order of R179, its rule from those answers, and the end of a machine by Exit (R145). -/

namespace Sys2Proof.Machine

variable {s : State} {m1 : Mode} {a : Word} {k : FaultKind}

/-! ## AdjRelBase, by the first check that fails -/

theorem adjRelBasePhases_of_read_error (ha : resolveRead s 1 m1 = .error k) : adjRelBasePhases m1 s = .error k := by
  simp only [adjRelBasePhases, ha, bind, Except.bind]

theorem adjRelBasePhases_of_overflow (ha : resolveRead s 1 m1 = .ok a) (hf : ¬ Fits64 (s.rb.toInt + a.toInt)) :
    adjRelBasePhases m1 s = .error .arithmeticOverflow := by
  simp only [adjRelBasePhases, ha, narrow_of_not_fits hf, bind, Except.bind]

theorem adjRelBasePhases_of_checks_passed (ha : resolveRead s 1 m1 = .ok a) (hf : Fits64 (s.rb.toInt + a.toInt)) :
    adjRelBasePhases m1 s = .ok ((s.setRb (BitVec.ofInt 64 (s.rb.toInt + a.toInt))).advance 2) := by
  simp only [adjRelBasePhases, ha, narrow_of_fits hf, bind, Except.bind]

/-- Settles O23: the commit sets `RB` to the sum that fits and moves `IP`; a fault of either check keeps `RB`. -/
theorem adjRelBaseAddsToBase : Obligations.AdjRelBaseAddsToBase := by
  unfold Obligations.AdjRelBaseAddsToBase
  intro m1 s hinv
  have hexec : exec (.adjRelBase m1) s = settle s (adjRelBasePhases m1 s) := rfl
  refine ⟨encode_toNat_of_one_mode rfl, fun a ha hf => ?completes,
    fun k ha => raises_of_settle_error hexec (adjRelBasePhases_of_read_error ha),
    fun a ha hf => raises_of_settle_error hexec (adjRelBasePhases_of_overflow ha hf)⟩
  case completes =>
    obtain ⟨-, hlast⟩ := resolveRead_eq_ok ha
    refine ⟨(s.setRb (BitVec.ofInt 64 (s.rb.toInt + a.toInt))).advance 2, ?_, toInt_ofInt_of_fits hf,
      ipPast_of_one_operand (i := .adjRelBase m1) hinv rfl rfl hlast, ⟨rfl, fun _ => rfl⟩, rfl, rfl, rfl, rfl, rfl⟩
    rw [hexec, adjRelBasePhases_of_checks_passed ha hf, settle_ok]

/-! ## Exit -/

theorem exec_exit (s : State) : exec .exit s = .next ((s.setStatus .halted).advance 1) := rfl

/-- A Halted machine was left by a step that executed Exit (R142, R131). -/
theorem stepResult_of_halted (h : s.status = .halted) : stepResult s = .halted := by
  simp only [stepResult, h]

/-- A finished machine takes no further step (R145). -/
theorem step_of_finished (h : s.status = .halted ∨ s.status = .faulted) : step s = .refused .runRejected := by
  rcases h with h | h <;> simp only [step, cycle, h]

/-- `IP` past the word that was fetched, which is present. -/
theorem ipPast_of_word {u : State} {w : Word} (hinv : Invariant s) (hip : u.ip = s.ip) (hw : fetchCell s 0 = .ok w) :
    IpPast s (u.advance 1) 1 := by
  obtain ⟨-, hword, -⟩ := fetchCell_eq_ok hw
  exact ipPast_cells (i := .exit) hinv hip hword

/-- Settles O24: the commit sets `STATE` to Halted and moves `IP` past the fetched word, and every step of the machine it
leaves is refused. -/
theorem exitHalts : Obligations.ExitHalts := by
  unfold Obligations.ExitHalts
  refine ⟨rfl, fun s hinv hw => ⟨(s.setStatus .halted).advance 1, exec_exit s, rfl, stepResult_of_halted rfl,
    ipPast_of_word hinv rfl hw, ⟨rfl, fun _ => rfl⟩, rfl, rfl, rfl, rfl, rfl, fun fuel => ?rejected⟩⟩
  case rejected =>
    exact runFor_of_refused fuel (step_of_finished (.inl rfl))

end Sys2Proof.Machine
end

section
/-! PROOFS. The execution loop (spec/46_execution_loop.md R140 to R154): what a step can leave in `STATE` and `FAULT`,
the loop of RUN as a relation without fuel, what a transaction of the host can do to the engine, and a relation between
two machines that every step keeps where the updates of a commit keep it. -/

namespace Sys2Proof.Machine

variable {s t u : State} {o : RunOutcome}

/-! ## The answer of a step -/

/-- Where `RUN` is accepted, a step has a next state (R142). -/
theorem step_answers (h : Runnable s) : ∃ t, step s = .next t := by
  rw [step_of_runnable h, runOne]
  cases fetchInstr (s.setStatus .running) with
  | error k => exact ⟨_, rfl⟩
  | ok i =>
    obtain ⟨t, ht, -⟩ := exec_cases (s.setStatus .running) i
    exact ⟨t, ht⟩

/-- Only a finished machine refuses a step (R145). -/
theorem finished_of_refused {r : Refusal} (h : step s = .refused r) : s.status = .halted ∨ s.status = .faulted := by
  cases hs : s.status with
  | running =>
    obtain ⟨t, ht⟩ := step_answers (.inl hs)
    cases h.symm.trans ht
  | suspendedOnOutput =>
    obtain ⟨t, ht⟩ := step_answers (.inr hs)
    cases h.symm.trans ht
  | halted => exact .inl rfl
  | faulted => exact .inr rfl
  | awaitingMoreInput => simp only [step, cycle, hs] at h; cases h

/-- An execution in Running completes without touching `FAULT`, or raises a fault of the engine. -/
theorem Effect.completes_or_faults {i : Instr} (he : Effect s i t) (hs : s.status = .running) :
    ((t.status = .running ∨ t.status = .suspendedOnOutput ∨ t.status = .halted) ∧ t.fault = s.fault) ∨
      ∃ k, k ≠ .startupParseFault ∧ t.status = .faulted ∧ t.fault = some k := by
  cases he with
  | raised k hk => exact .inr ⟨k, hk, rfl, rfl⟩
  | yielded => exact .inl ⟨.inr (.inl rfl), rfl⟩
  | exited => exact .inl ⟨.inr (.inr rfl), rfl⟩
  | stored | popped | jumped | fellThrough | rebased => exact .inl ⟨.inl hs, rfl⟩

/-- The same of a whole step, whose fetch and decoding can fault as well. -/
theorem step_completes_or_faults (h : step s = .next t) :
    ((t.status = .running ∨ t.status = .suspendedOnOutput ∨ t.status = .halted) ∧ t.fault = s.fault) ∨
      ∃ k, k ≠ .startupParseFault ∧ t.status = .faulted ∧ t.fault = some k := by
  obtain ⟨-, ⟨k, hfetch, rfl⟩ | ⟨i, -, he⟩⟩ := step_cases h
  · exact .inr ⟨k, fetchInstr_error_ne_startupParseFault hfetch, rfl, rfl⟩
  · exact he.completes_or_faults rfl

/-! ## The result of a step, by the registers -/

theorem stepResult_of_faulted {k : FaultKind} (h : t.status = .faulted) (hk : t.fault = some k) :
    stepResult t = .faulted k := by
  simp only [stepResult, h, hk]

/-- The registers behind each result that ends a `RUN`. -/
theorem registers_of_stepResult (t : State) :
    (∀ v, stepResult t = .yielded v → t.status = .suspendedOnOutput ∧ t.out = v) ∧
    (stepResult t = .halted → t.status = .halted) ∧
    ∀ k, stepResult t = .faulted k → t.status = .faulted ∧ t.fault = some k := by
  cases hs : t.status with
  | running | suspendedOnOutput | halted | awaitingMoreInput => simp [stepResult, hs]
  | faulted => cases hk : t.fault <;> simp [stepResult, hs, hk]

/-- A step whose result is `Continue` leaves the machine Running. -/
theorem running_of_continued (h : step s = .next t) (hc : stepResult t = .continued) : t.status = .running := by
  rcases step_completes_or_faults h with ⟨hs | hs | hs, -⟩ | ⟨k, -, hs, hk⟩
  · exact hs
  · cases (stepResult_of_suspended hs).symm.trans hc
  · cases (stepResult_of_halted hs).symm.trans hc
  · cases (stepResult_of_faulted hs hk).symm.trans hc

/-- `RUN` goes on after no result but `Continue` (R143). -/
theorem returnedOn_eq_none_iff {r : StepResult} : returnedOn r = none ↔ r = .continued := by
  cases r <;> simp [returnedOn]

/-! ## The loop of RUN without fuel -/

/-- The `RUN` from a state returns an outcome and a state (R143): rejected at once, ended by its first step, or as the
rest of it returns after a step that continues. -/
inductive LoopReturns : State → RunOutcome → State → Prop where
  | rejected {s : State} {r : Refusal} (hstep : step s = .refused r) : LoopReturns s .rejected s
  | ended {s t : State} {o : RunOutcome} (hstep : step s = .next t) (ho : returnedOn (stepResult t) = some o) :
      LoopReturns s o t
  | continued {s u t : State} {o : RunOutcome} (hstep : step s = .next u) (hc : stepResult u = .continued)
      (hrest : LoopReturns u o t) : LoopReturns s o t

theorem loopReturns_of_runFor {fuel : Nat} (h : runFor fuel s = .returned o t) : LoopReturns s o t := by
  induction fuel generalizing s with
  | zero => cases h
  | succ n ih =>
    cases hstep : step s with
    | refused r => rw [runFor_of_refused n hstep] at h; cases h; exact .rejected hstep
    | fault r => simp only [runFor, hstep] at h; cases h
    | next u =>
      cases hr : returnedOn (stepResult u) with
      | some o' => rw [runFor_of_returned n hstep hr] at h; cases h; exact .ended hstep hr
      | none =>
        have hc := returnedOn_eq_none_iff.mp hr
        rw [runFor_of_continued n hstep hc] at h
        exact .continued hstep hc (ih h)

/-- The relation is the model's `RUN`, watched long enough. -/
theorem runReturns_iff_loopReturns : RunReturns s o t ↔ LoopReturns s o t := by
  refine ⟨fun ⟨_, h⟩ => loopReturns_of_runFor h, fun h => ?_⟩
  induction h with
  | rejected hstep => exact ⟨1, runFor_of_refused 0 hstep⟩
  | ended hstep ho => exact ⟨1, runFor_of_returned 0 hstep ho⟩
  | continued hstep hc _ ih =>
    obtain ⟨n, hn⟩ := ih
    exact ⟨n + 1, (runFor_of_continued n hstep hc).trans hn⟩

/-- Every turn of the loop keeps the invariant, so the whole `RUN` does. -/
theorem LoopReturns.keeps_invariant (h : LoopReturns s o t) (hinv : Invariant s) : Invariant t := by
  induction h with
  | rejected => exact hinv
  | ended hstep _ => exact stepKeepsInvariant _ _ hinv hstep
  | continued hstep _ _ ih => exact ih (stepKeepsInvariant _ _ hinv hstep)

/-! ## PUSH_INPUT -/

theorem inqHasRoom_of_unbounded (h : s.cfg.inqDepth = none) : inqHasRoom s = true := by
  simp only [inqHasRoom, h]

theorem inqHasRoom_iff {d : Nat} (h : s.cfg.inqDepth = some d) : inqHasRoom s = true ↔ s.inq.length < d := by
  simp only [inqHasRoom, h, decide_eq_true_iff]

theorem pushInput_of_room (v : Word) (h : inqHasRoom s = true) : pushInput v s = s.setInq (s.inq ++ [v]) := if_pos h

theorem pushInput_of_full (v : Word) (h : ¬ inqHasRoom s = true) : pushInput v s = s := if_neg h

theorem setInq_append_nil (s : State) : s.setInq (s.inq ++ []) = s := by
  rw [List.append_nil]
  rfl

/-- `PUSH_INPUT` appends at the back of `INQ`, or nothing at all (R146). -/
theorem pushInput_appends (v : Word) (s : State) : ∃ added, pushInput v s = s.setInq (s.inq ++ added) := by
  by_cases h : inqHasRoom s = true
  · exact ⟨[v], pushInput_of_room v h⟩
  · exact ⟨[], (pushInput_of_full v h).trans (setInq_append_nil s).symm⟩

/-- A value is appended only where the queue stays within `INQ_DEPTH` (R20). -/
theorem Invariant.pushInput (hinv : Invariant s) (v : Word) : Invariant (pushInput v s) := by
  by_cases h : inqHasRoom s = true
  · rw [pushInput_of_room v h]
    obtain ⟨hcfg, hlen, hwf, hbelow, -, hrest⟩ := hinv
    refine ⟨hcfg, hlen, hwf, hbelow, fun d hd => ?_, hrest⟩
    have hroom : s.inq.length < d := (inqHasRoom_iff (s := s) hd).mp h
    simpa using hroom
  · rwa [pushInput_of_full v h]

/-! ## What a transaction can do to the engine -/

/-- The engines a transaction, its `RUN` watched for at most `fuel` steps, can leave. -/
inductive HostEffect (fuel : Nat) : Transaction → Engine → Engine → Prop where
  /-- RESET, refused or not -/
  | reset (image : List Word) (e : Engine) : HostEffect fuel (.reset image) e (resetEngine image e).2
  /-- PEEK, status reads, and everything but RESET before the first one -/
  | kept (tr : Transaction) (e : Engine) : HostEffect fuel tr e e
  | pushed (v : Word) (s : State) : HostEffect fuel (.pushInput v) (.live s) (.live (pushInput v s))
  /-- RUN, where it returns -/
  | ran {s t : State} {o : RunOutcome} (h : runFor fuel s = .returned o t) : HostEffect fuel .run (.live s) (.live t)

theorem runEngine_of_returned {fuel : Nat} (h : runFor fuel s = .returned o t) :
    runEngine fuel s = some (.outcome o, .live t) := by
  simp only [runEngine, h]

theorem runEngine_eq_some {fuel : Nat} {p : Reply × Engine} (h : runEngine fuel s = some p) :
    ∃ o t, runFor fuel s = .returned o t ∧ p = (.outcome o, .live t) := by
  cases hrun : runFor fuel s with
  | returned o t => exact ⟨o, t, rfl, (Option.some.inj ((runEngine_of_returned hrun).symm.trans h)).symm⟩
  | executing t => simp only [runEngine, hrun] at h; cases h
  | stuck t => simp only [runEngine, hrun] at h; cases h

/-- The effect behind the answer of a transaction. -/
theorem hostEffect_of_transact {fuel : Nat} {tr : Transaction} {e e' : Engine} {r : Reply}
    (h : transact fuel tr e = some (r, e')) : HostEffect fuel tr e e' := by
  cases tr with
  | reset image =>
    have he : (resetEngine image e).2 = e' := congrArg Prod.snd (Option.some.inj h)
    exact he ▸ .reset image e
  | pushInput v =>
    cases e with
    | powerUp cfg => cases h; exact .kept _ _
    | live s => cases h; exact .pushed v s
  | run =>
    cases e with
    | powerUp cfg => cases h; exact .kept _ _
    | live s =>
      obtain ⟨o, t, hrun, hp⟩ := runEngine_eq_some h
      cases hp
      exact .ran hrun
  | peek a => cases e <;> cases h <;> exact .kept _ _
  | readStatus item => cases e <;> cases h <;> exact .kept _ _

/-- The invariant of an engine covers its parameters, before a machine exists and after. -/
theorem EngineInvariant.valid_cfg {e : Engine} (h : EngineInvariant e) : e.cfg.Valid := by
  cases e with
  | powerUp cfg => exact h
  | live s => exact h.1

theorem engineInvariant_resetEngine {e : Engine} (h : EngineInvariant e) (image : List Word) :
    EngineInvariant (resetEngine image e).2 := by
  by_cases hfits : image.length ≤ e.cfg.tapeLimit
  · rw [resetEngine_of_fits hfits]
    exact invariant_resetImage h.valid_cfg hfits
  · rw [resetEngine_of_not_fits (Nat.not_le.mp hfits)]
    exact h

/-- Settles O47: each effect of a transaction keeps the invariant, a `RUN` by induction on its turns. -/
theorem transactionsKeepInvariant : Obligations.TransactionsKeepInvariant := by
  unfold Obligations.TransactionsKeepInvariant
  intro fuel tr e e' r hinv h
  cases hostEffect_of_transact h with
  | reset image => exact engineInvariant_resetEngine hinv image
  | kept => exact hinv
  | pushed v s => exact Invariant.pushInput hinv v
  | ran hrun => exact (loopReturns_of_runFor hrun).keeps_invariant hinv

/-! ## PUSH_INPUT, suspended and finished machines -/

/-- Settles O41: whether there is room decides the answer and the effect alike. -/
theorem pushInputAppendsOrReportsFull : Obligations.PushInputAppendsOrReportsFull := by
  unfold Obligations.PushInputAppendsOrReportsFull
  intro fuel v s
  have accepted (h : inqHasRoom s = true) :
      transact fuel (.pushInput v) (.live s) = some (.accepted, .live (s.setInq (s.inq ++ [v]))) := by
    rw [transact, if_pos h, pushInput_of_room v h]
  refine ⟨fun hd => accepted (inqHasRoom_of_unbounded hd), fun d hd =>
    ⟨fun hlt => accepted ((inqHasRoom_iff hd).mpr hlt), fun hle => ?full⟩⟩
  case full =>
    have hfull : ¬ inqHasRoom s = true := fun h => Nat.not_lt.mpr hle ((inqHasRoom_iff hd).mp h)
    rw [transact, if_neg hfull, pushInput_of_full v hfull]

/-- Without RUN and RESET the host can only append to `INQ` (R144, R146, R148). -/
theorem HostEffect.appends {fuel : Nat} {tr : Transaction} {e : Engine} (h : HostEffect fuel tr (.live s) e)
    (hrun : tr ≠ .run) (hreset : ∀ image, tr ≠ .reset image) : ∃ added, e = .live (s.setInq (s.inq ++ added)) := by
  cases h with
  | reset image => exact absurd rfl (hreset image)
  | kept => exact ⟨[], congrArg Engine.live (setInq_append_nil _).symm⟩
  | pushed v =>
    obtain ⟨added, hadded⟩ := pushInput_appends v s
    exact ⟨added, congrArg Engine.live hadded⟩
  | ran => exact absurd rfl hrun

/-- Settles O36: a step sets `STATE` to Running whatever it was, and the host's effects without RUN append. -/
theorem suspensionKeepsContinuation : Obligations.SuspensionKeepsContinuation := by
  unfold Obligations.SuspensionKeepsContinuation
  intro s hs
  refine ⟨?_, fun fuel tr r e hrun hreset h => (hostEffect_of_transact h).appends hrun hreset⟩
  rw [step_of_runnable (.inr hs), step_of_runnable (s := s.setStatus .running) (.inl rfl)]
  rfl

/-- Settles O35: the refused step makes the first turn of the loop return `Rejected`. -/
theorem finishedMachineRejectsRun : Obligations.FinishedMachineRejectsRun := by
  unfold Obligations.FinishedMachineRejectsRun
  intro s hs
  have hstep := step_of_finished hs
  exact ⟨hstep, fun fuel => runEngine_of_returned (runFor_of_refused fuel hstep)⟩

/-- A `RUN` that returns on a finished machine leaves it as it was (R145). -/
theorem LoopReturns.eq_of_finished (h : LoopReturns s o t) (hs : s.status = .halted ∨ s.status = .faulted) : t = s := by
  cases h with
  | rejected => rfl
  | ended hstep _ | continued hstep _ _ => cases (step_of_finished hs).symm.trans hstep

/-- Settles O40: a `RUN` is rejected, and the host's other effects append. -/
theorem finishedMachineStaysFinished : Obligations.FinishedMachineStaysFinished := by
  unfold Obligations.FinishedMachineStaysFinished
  intro fuel tr s r e hs hreset h
  have heffect := hostEffect_of_transact h
  by_cases htr : tr = .run
  · subst htr
    cases heffect with
    | kept => exact ⟨[], congrArg Engine.live (setInq_append_nil _).symm⟩
    | ran hrun =>
      obtain rfl := (loopReturns_of_runFor hrun).eq_of_finished hs
      exact ⟨[], congrArg Engine.live (setInq_append_nil _).symm⟩
  · exact heffect.appends htr hreset

/-! ## The outcome of a RUN -/

/-- A `RUN` returns on the result of its last step, or it was rejected before the first: after `Continue` the machine is
Running, where no step is refused. -/
theorem LoopReturns.ended_or_rejected (h : LoopReturns s o t) :
    returnedOn (stepResult t) = some o ∨ (o = .rejected ∧ (s.status = .halted ∨ s.status = .faulted) ∧ t = s) := by
  induction h with
  | rejected hstep => exact .inr ⟨rfl, finished_of_refused hstep, rfl⟩
  | ended _ ho => exact .inl ho
  | continued hstep hc _ ih =>
    have hrunning := running_of_continued hstep hc
    rcases ih with ho | ⟨-, hfinished, -⟩
    · exact .inl ho
    · simp [hrunning] at hfinished

/-- Settles O37: the outcome is that of the last step's result, which is read off the registers. -/
theorem runOutcomeMatchesRegisters : Obligations.RunOutcomeMatchesRegisters := by
  unfold Obligations.RunOutcomeMatchesRegisters
  intro s t o h
  obtain ⟨hyielded, hhalted, hfaulted⟩ := registers_of_stepResult t
  rcases (runReturns_iff_loopReturns.mp h).ended_or_rejected with ho | ⟨rfl, hfinished, rfl⟩
  · cases hres : stepResult t with
    | continued => rw [hres] at ho; cases ho
    | yielded v => rw [hres] at ho; cases ho; exact hyielded v hres
    | halted => rw [hres] at ho; cases ho; exact hhalted hres
    | faulted k => rw [hres] at ho; cases ho; exact hfaulted k hres
  · exact ⟨hfinished, rfl⟩

/-- A step that continues leaves the outcome to the rest of the loop. -/
theorem loopReturns_of_continued (hstep : step s = .next u) (hc : stepResult u = .continued) :
    LoopReturns s o t ↔ LoopReturns u o t := by
  refine ⟨fun h => ?_, .continued hstep hc⟩
  cases h with
  | rejected hstep' => cases hstep.symm.trans hstep'
  | ended hstep' ho =>
    cases hstep.symm.trans hstep'
    cases ho.symm.trans (returnedOn_eq_none_iff.mpr hc)
  | continued hstep' _ hrest =>
    cases hstep.symm.trans hstep'
    exact hrest

/-- A step answers one way, so the loop goes one way. -/
theorem LoopReturns.deterministic {o' : RunOutcome} {t' : State} (h : LoopReturns s o t) (h' : LoopReturns s o' t') :
    o = o' ∧ t = t' := by
  induction h with
  | rejected hstep =>
    cases h' with
    | rejected => exact ⟨rfl, rfl⟩
    | ended hstep' _ | continued hstep' _ _ => cases hstep.symm.trans hstep'
  | ended hstep ho =>
    cases h' with
    | rejected hstep' => cases hstep.symm.trans hstep'
    | ended hstep' ho' =>
      cases hstep.symm.trans hstep'
      exact ⟨Option.some.inj (ho.symm.trans ho'), rfl⟩
    | continued hstep' hc _ =>
      cases hstep.symm.trans hstep'
      cases ho.symm.trans (returnedOn_eq_none_iff.mpr hc)
  | continued hstep hc _ ih => exact ih ((loopReturns_of_continued hstep hc).mp h')

/-- Settles O38: however long each `RUN` was watched, both are the one loop. -/
theorem runIsDeterministic : Obligations.RunIsDeterministic := by
  unfold Obligations.RunIsDeterministic
  exact fun s t t' o o' h h' => (runReturns_iff_loopReturns.mp h).deterministic (runReturns_iff_loopReturns.mp h')

/-- Settles O39: the loop cannot leave the set, so its induction never reaches a turn that returns. -/
theorem endlessRunNeverReturns : Obligations.EndlessRunNeverReturns := by
  unfold Obligations.EndlessRunNeverReturns
  intro P hP s hs o t
  rw [runReturns_iff_loopReturns]
  intro h
  induction h with
  | rejected hstep =>
    obtain ⟨u, hu, -⟩ := hP _ hs
    cases hstep.symm.trans hu
  | ended hstep ho =>
    obtain ⟨u, hu, hc, -⟩ := hP _ hs
    cases hstep.symm.trans hu
    cases ho.symm.trans (returnedOn_eq_none_iff.mpr hc)
  | continued hstep _ _ ih =>
    obtain ⟨u, hu, -, hPu⟩ := hP _ hs
    cases hstep.symm.trans hu
    exact ih hPu

/-- Settles O48: the step answers, and each of its four results is one way for the loop to go. -/
theorem runFollowsItsSteps : Obligations.RunFollowsItsSteps := by
  unfold Obligations.RunFollowsItsSteps
  intro s hs
  obtain ⟨t, ht⟩ := step_answers hs
  have ended {o : RunOutcome} (ho : returnedOn (stepResult t) = some o) : RunReturns s o t :=
    ⟨1, runFor_of_returned 0 ht ho⟩
  refine ⟨t, ht, fun v h => ended (by rw [h]; rfl), fun h => ended (by rw [h]; rfl), fun k h => ended (by rw [h]; rfl),
    fun hc o u => ?_⟩
  rw [runReturns_iff_loopReturns, runReturns_iff_loopReturns, loopReturns_of_continued ht hc]

/-! ## The reserved codes and the end by Exit -/

/-- Settles O34: a step that completes leaves one of three other states and keeps `FAULT`, and no fault of the engine is
the loader's. -/
theorem reservedCodesNeverEntered : Obligations.ReservedCodesNeverEntered := by
  unfold Obligations.ReservedCodesNeverEntered
  intro s t h
  rcases step_completes_or_faults h with ⟨hs, hfault⟩ | ⟨k, hk, hs, hfault⟩
  · refine ⟨?_, fun hold => hfault ▸ hold⟩
    rcases hs with hs | hs | hs <;> simp [hs]
  · exact ⟨by simp [hs], fun _ => by simpa [hfault] using hk⟩

/-- The word 99 and no other is Exit (R53, R57). -/
theorem decodeWord_eq_exit_iff {w : Word} : decodeWord w = .ok .exit ↔ w.toInt = 99 := by
  rw [decodeWord_eq_ok_iff]
  exact BitVec.toInt_inj.symm

/-- Of all instructions only Exit halts a Running machine (R131). -/
theorem Effect.exit_of_halted {i : Instr} (he : Effect s i t) (hs : s.status = .running) (ht : t.status = .halted) :
    i = .exit := by
  have hne : t.status ≠ s.status := by simp [hs, ht]
  rcases he.cases_of_status_ne hne with ⟨m, -, hsuspended⟩ | ⟨hi, -⟩ | ⟨k, hfaulted, -⟩
  · cases ht.symm.trans hsuspended
  · exact hi
  · cases ht.symm.trans hfaulted

/-- A step halts exactly where Exit stands at `IP` (R131, R154). -/
theorem step_halts_iff (h : step s = .next t) :
    t.status = .halted ↔ ∃ w, fetchCell s 0 = .ok w ∧ decodeWord w = .ok .exit := by
  obtain ⟨hrunnable, hcases⟩ := step_cases h
  constructor
  · intro ht
    rcases hcases with ⟨k, -, rfl⟩ | ⟨i, hfetch, he⟩
    · cases ht
    · obtain rfl := he.exit_of_halted rfl ht
      exact fetchInstr_eq_ok hfetch
  · rintro ⟨w, hw, hexit⟩
    have hstep := step_of_word hrunnable hw hexit
    rw [exec_exit, h] at hstep
    cases hstep
    rfl

/-- Settles O33: a halting step executes Exit, whose word is 99; a program's run ends normally with the `RUN` that
returns `Halted`. -/
theorem onlyExitEndsNormally : Obligations.OnlyExitEndsNormally := by
  unfold Obligations.OnlyExitEndsNormally
  refine ⟨fun s t h => by simpa only [decodeWord_eq_exit_iff] using step_halts_iff h, fun s t outputs h => ?_⟩
  unfold EndsNormally at h
  generalize ho : RunOutcome.halted = o at h
  induction h with
  | halt hrun => exact runOutcomeMatchesRegisters _ _ _ hrun
  | fault => cases ho
  | output _ _ ih | push _ ih => exact ih ho

/-! ## Two machines that a step cannot tell apart -/

/-- A relation between machines that agree on what a step reads, kept by every update of a commit and by a fault. -/
structure KeptByUpdates (R : State → State → Prop) : Prop where
  reads : ∀ {s t}, R s t → t.ip = s.ip ∧ t.len = s.len ∧ t.tape = s.tape ∧ t.rb = s.rb ∧ t.inq = s.inq ∧
    t.cfg.tapeLimit = s.cfg.tapeLimit
  setIp : ∀ {s t}, R s t → ∀ v, R (s.setIp v) (t.setIp v)
  setRb : ∀ {s t}, R s t → ∀ v, R (s.setRb v) (t.setRb v)
  setInq : ∀ {s t}, R s t → ∀ q, R (s.setInq q) (t.setInq q)
  memWrite : ∀ {s t}, R s t → ∀ x v, R (s.memWrite x v) (t.memWrite x v)
  yield : ∀ {s t}, R s t → ∀ a, R ((s.setOut a).setStatus .suspendedOnOutput) ((t.setOut a).setStatus .suspendedOnOutput)
  halt : ∀ {s t}, R s t → R (s.setStatus .halted) (t.setStatus .halted)
  takeFault : ∀ {s t}, R s t → ∀ k, R (s.takeFault k) (t.takeFault k)

/-- Two check phases that raise the same fault, or commit to related states. -/
inductive PhasesRelated (R : State → State → Prop) : Except FaultKind State → Except FaultKind State → Prop where
  | raised (k : FaultKind) : PhasesRelated R (.error k) (.error k)
  | committed {s t : State} (h : R s t) : PhasesRelated R (.ok s) (.ok t)

/-- A check that answers the same for both machines leaves the rest of the phases to compare. -/
theorem phasesRelated_bind {R : State → State → Prop} {α : Type} {f g : α → Except FaultKind State}
    (x : Except FaultKind α) (h : ∀ a, PhasesRelated R (f a) (g a)) : PhasesRelated R (x >>= f) (x >>= g) := by
  cases x with
  | error k => exact .raised k
  | ok a => exact h a

section
variable {R : State → State → Prop}

theorem KeptByUpdates.advance (hR : KeptByUpdates R) (h : R s t) (n : Nat) : R (s.advance n) (t.advance n) := by
  obtain ⟨hip, -⟩ := hR.reads h
  simpa only [State.advance, hip] using hR.setIp h (BitVec.ofInt 64 (s.ip.toInt + n))

theorem KeptByUpdates.fetchCell_eq (hR : KeptByUpdates R) (h : R s t) (k : Nat) : fetchCell t k = fetchCell s k := by
  obtain ⟨hip, hlen, htape, -⟩ := hR.reads h
  exact fetchCell_congr hip hlen htape k

theorem KeptByUpdates.resolveRead_eq (hR : KeptByUpdates R) (h : R s t) (k : Nat) (m : Mode) :
    resolveRead t k m = resolveRead s k m := by
  obtain ⟨hip, hlen, htape, hrb, -⟩ := hR.reads h
  exact resolveRead_congr hip hlen htape hrb k m

/-- Of the parameters a write operand depends on `TAPE_LIMIT` alone. -/
theorem KeptByUpdates.resolveWriteAddr_eq (hR : KeptByUpdates R) (h : R s t) (k : Nat) (m : Mode) :
    resolveWriteAddr t k m = resolveWriteAddr s k m := by
  obtain ⟨-, -, -, hrb, -, hlimit⟩ := hR.reads h
  simp only [resolveWriteAddr, hR.fetchCell_eq h, writeAddress, hrb, hlimit]

theorem KeptByUpdates.popInput_eq (hR : KeptByUpdates R) (h : R s t) : popInput t = popInput s := by
  obtain ⟨-, -, -, -, hinq, -⟩ := hR.reads h
  simp only [popInput, hinq]

theorem KeptByUpdates.arithmetic (hR : KeptByUpdates R) (h : R s t) (f : Int → Int → Int) (m1 m2 m3 : Mode) :
    PhasesRelated R (arithmetic f m1 m2 m3 s) (arithmetic f m1 m2 m3 t) := by
  simp only [Machine.arithmetic, hR.resolveRead_eq h, hR.resolveWriteAddr_eq h]
  exact phasesRelated_bind _ fun _ => phasesRelated_bind _ fun _ => phasesRelated_bind _ fun r =>
    phasesRelated_bind _ fun x => .committed (hR.advance (hR.memWrite h x r) 4)

theorem KeptByUpdates.compareInto (hR : KeptByUpdates R) (h : R s t) (p : Word → Word → Bool) (m1 m2 m3 : Mode) :
    PhasesRelated R (compareInto p m1 m2 m3 s) (compareInto p m1 m2 m3 t) := by
  simp only [Machine.compareInto, hR.resolveRead_eq h, hR.resolveWriteAddr_eq h]
  exact phasesRelated_bind _ fun _ => phasesRelated_bind _ fun _ => phasesRelated_bind _ fun x =>
    .committed (hR.advance (hR.memWrite h x _) 4)

theorem KeptByUpdates.jumpWhen (hR : KeptByUpdates R) (h : R s t) (taken : Word → Bool) (m1 m2 : Mode) :
    PhasesRelated R (jumpWhen taken m1 m2 s) (jumpWhen taken m1 m2 t) := by
  simp only [Machine.jumpWhen, hR.resolveRead_eq h]
  refine phasesRelated_bind _ fun a => phasesRelated_bind _ fun target => .committed ?_
  split
  · exact hR.setIp h target
  · exact hR.advance h 3

theorem KeptByUpdates.inputPhases (hR : KeptByUpdates R) (h : R s t) (m : Mode) :
    PhasesRelated R (inputPhases m s) (inputPhases m t) := by
  simp only [Machine.inputPhases, hR.popInput_eq h, hR.resolveWriteAddr_eq h]
  exact phasesRelated_bind _ fun ⟨v, rest⟩ => phasesRelated_bind _ fun x =>
    .committed (hR.advance (hR.memWrite (hR.setInq h rest) x v) 2)

theorem KeptByUpdates.outputPhases (hR : KeptByUpdates R) (h : R s t) (m : Mode) :
    PhasesRelated R (outputPhases m s) (outputPhases m t) := by
  simp only [Machine.outputPhases, hR.resolveRead_eq h]
  exact phasesRelated_bind _ fun a => .committed (hR.advance (hR.yield h a) 2)

theorem KeptByUpdates.adjRelBasePhases (hR : KeptByUpdates R) (h : R s t) (m : Mode) :
    PhasesRelated R (adjRelBasePhases m s) (adjRelBasePhases m t) := by
  obtain ⟨-, -, -, hrb, -⟩ := hR.reads h
  simp only [Machine.adjRelBasePhases, hR.resolveRead_eq h, hrb]
  exact phasesRelated_bind _ fun _ => phasesRelated_bind _ fun r => .committed (hR.advance (hR.setRb h r) 2)

/-- Related check phases end in related next states. -/
theorem KeptByUpdates.settle (hR : KeptByUpdates R) (h : R s t) {p q : Except FaultKind State}
    (hpq : PhasesRelated R p q) : ∃ s' t', settle s p = .next s' ∧ settle t q = .next t' ∧ R s' t' := by
  cases hpq with
  | raised k => exact ⟨_, _, rfl, rfl, hR.takeFault h k⟩
  | committed h' => exact ⟨_, _, rfl, rfl, h'⟩

/-- Related machines execute an instruction to related machines. -/
theorem KeptByUpdates.exec (hR : KeptByUpdates R) (h : R s t) (i : Instr) :
    ∃ s' t', exec i s = .next s' ∧ exec i t = .next t' ∧ R s' t' := by
  cases i with
  | add m1 m2 m3 => exact hR.settle h (hR.arithmetic h _ m1 m2 m3)
  | multiply m1 m2 m3 => exact hR.settle h (hR.arithmetic h _ m1 m2 m3)
  | input m => exact hR.settle h (hR.inputPhases h m)
  | output m => exact hR.settle h (hR.outputPhases h m)
  | jumpIfNz m1 m2 => exact hR.settle h (hR.jumpWhen h _ m1 m2)
  | jumpIfZ m1 m2 => exact hR.settle h (hR.jumpWhen h _ m1 m2)
  | jumpLt m1 m2 m3 => exact hR.settle h (hR.compareInto h _ m1 m2 m3)
  | jumpEq m1 m2 m3 => exact hR.settle h (hR.compareInto h _ m1 m2 m3)
  | adjRelBase m => exact hR.settle h (hR.adjRelBasePhases h m)
  | exit => exact hR.settle h (.committed (hR.advance (hR.halt h) 1))

/-- Machines that are related once `STATE` is Running step to related machines. -/
theorem KeptByUpdates.step (hR : KeptByUpdates R) (hs : Runnable s) (ht : Runnable t)
    (h : R (s.setStatus .running) (t.setStatus .running)) :
    ∃ s' t', step s = .next s' ∧ step t = .next t' ∧ R s' t' := by
  rw [step_of_runnable hs, step_of_runnable ht, runOne, runOne, fetchInstr_congr (hR.fetchCell_eq h 0)]
  cases fetchInstr (s.setStatus .running) with
  | error k => exact hR.settle h (.raised k)
  | ok i => exact hR.exec h i

end

/-! ## The inputs of a step -/

/-- `t` is `s` in everything a step reads, in `STATE`, and in the result of the step that led there. `OUT` and `FAULT`
may differ where that result does not show them. -/
structure SameInputs (s t : State) : Prop where
  cfg : t.cfg = s.cfg
  tape : t.tape = s.tape
  len : t.len = s.len
  ip : t.ip = s.ip
  rb : t.rb = s.rb
  inq : t.inq = s.inq
  status : t.status = s.status
  result : stepResult t = stepResult s

theorem keptByUpdates_sameInputs : KeptByUpdates SameInputs where
  reads h := ⟨h.ip, h.len, h.tape, h.rb, h.inq, congrArg Config.tapeLimit h.cfg⟩
  setIp h _ := { h with ip := rfl }
  setRb h _ := { h with rb := rfl }
  setInq h _ := { h with inq := rfl }
  memWrite h x v := { h with tape := congrArg (·.write x v) h.tape, len := congrArg (max · (x + 1)) h.len }
  yield h _ := { h with status := rfl, result := rfl }
  halt h := { h with status := rfl, result := rfl }
  takeFault h _ := { h with status := rfl, result := rfl }

/-- Settles O29: set to Running the two machines have the same inputs, and every step keeps that. -/
theorem stepIsFunctionOfItsInputs : Obligations.StepIsFunctionOfItsInputs := by
  unfold Obligations.StepIsFunctionOfItsInputs
  intro s t hs ht hcfg htape hlen hip hrb hinq
  have hsame : SameInputs (s.setStatus .running) (t.setStatus .running) := ⟨hcfg, htape, hlen, hip, hrb, hinq, rfl, rfl⟩
  obtain ⟨s', t', hs', ht', h⟩ := keptByUpdates_sameInputs.step hs ht hsame
  exact ⟨s', t', hs', ht', h.cfg, h.tape, h.len, h.ip, h.rb, h.inq, h.status, h.result⟩

/-- No update reads or writes `INQ_DEPTH`. -/
theorem keptByUpdates_withInqDepth (d : Option Nat) : KeptByUpdates fun s t => t = withInqDepth s d where
  reads h := by subst h; exact ⟨rfl, rfl, rfl, rfl, rfl, rfl⟩
  setIp h _ := by subst h; rfl
  setRb h _ := by subst h; rfl
  setInq h _ := by subst h; rfl
  memWrite h _ _ := by subst h; rfl
  yield h _ := by subst h; rfl
  halt h := by subst h; rfl
  takeFault h _ := by subst h; rfl

/-- Settles O50: to differ in `INQ_DEPTH` alone is kept by every step. -/
theorem inqDepthUnusedBySteps : Obligations.InqDepthUnusedBySteps := by
  unfold Obligations.InqDepthUnusedBySteps
  intro s t d h
  obtain ⟨hs, -⟩ := step_cases h
  obtain ⟨s', t', hs', ht', rfl⟩ := (keptByUpdates_withInqDepth d).step (t := withInqDepth s d) hs hs rfl
  cases h.symm.trans hs'
  exact ht'

end Sys2Proof.Machine
end

section
/-! PROOFS. Fault entry as a step shows it (spec/60_exceptions.md R171, R174, R180): the machine a faulting step leaves,
compared with the one the step began from, in Running or SuspendedOnOutput. -/

namespace Sys2Proof.Machine

variable {s t : State}

/-- A fault taken with `STATE` set to another value first is the same precise fault, for the entry overwrites `STATE`. -/
theorem faulted_takeFault_setStatus (s : State) (r : RunState) (k : FaultKind) :
    Faulted s ((s.setStatus r).takeFault k) k :=
  faulted_takeFault (s.setStatus r) k

/-- An execution in Running that ends Faulted raised, and changed nothing but `STATE` and `FAULT` (R180). -/
theorem Effect.faulted_of_status_faulted {i : Instr} (he : Effect s i t) (hs : s.status = .running)
    (ht : t.status = .faulted) : ∃ k, Faulted s t k := by
  have hne : t.status ≠ s.status := by simp [hs, ht]
  rcases he.cases_of_status_ne hne with ⟨m, -, hsuspended⟩ | ⟨-, hhalted⟩ | hfaulted
  · cases ht.symm.trans hsuspended
  · cases ht.symm.trans hhalted
  · exact hfaulted

/-- Every step that ends Faulted is a precise fault entry, whether its fetch, its decoding or its execution raised. -/
theorem faulted_of_step_status_faulted (h : step s = .next t) (ht : t.status = .faulted) : ∃ k, Faulted s t k := by
  obtain ⟨-, ⟨k, -, rfl⟩ | ⟨i, -, he⟩⟩ := step_cases h
  · exact ⟨k, faulted_takeFault_setStatus s .running k⟩
  · exact he.faulted_of_status_faulted rfl ht

/-- Settles O30: a step from a runnable state answers, and where its answer is Faulted the entry was precise. -/
theorem stepIsSafeOrPreciseFault : Obligations.StepIsSafeOrPreciseFault := by
  unfold Obligations.StepIsSafeOrPreciseFault
  intro s hs
  obtain ⟨t, h⟩ := step_answers hs
  by_cases ht : t.status = .faulted
  · obtain ⟨k, hk⟩ := faulted_of_step_status_faulted h ht
    exact .inr ⟨t, k, h, hk⟩
  · exact .inl ⟨t, h, ht⟩

/-- Settles O28: both steps are the fault entry of their kind, by what the fetch or the decoding answers. -/
theorem stepFaultsWithoutInstruction : Obligations.StepFaultsWithoutInstruction := by
  unfold Obligations.StepFaultsWithoutInstruction
  exact fun s hs =>
    ⟨fun hfetch => ⟨_, step_of_no_cell hs hfetch, faulted_takeFault_setStatus s .running .addressFault⟩,
      fun w e hw he => ⟨_, step_of_no_instr hs hw he, faulted_takeFault_setStatus s .running .decodeFault⟩⟩

end Sys2Proof.Machine
end

section
/-! PROOFS. `RUN` as a host sees it that watches for a number of steps (spec/46_execution_loop.md R143,
spec/70_reset_and_hazards.md R206), the engine before the first `RESET` (R200), and words written out from the encoding
(spec/30_encoding.md section 1). -/

namespace Sys2Proof.Machine

variable {s t : State} {n : Nat}

/-! ## A RUN watched for a number of steps -/

/-- The steps that continue use one fuel each and leave the rest of it to the loop. -/
theorem Continues.runFor_add (h : Continues n s t) (fuel : Nat) : runFor (n + fuel) s = runFor fuel t := by
  induction h with
  | here => rw [Nat.zero_add]
  | more hstep hc _ ih => rw [Nat.add_right_comm, runFor_of_continued _ hstep hc, ih]

/-- While every step continues, the `RUN` has not returned. -/
theorem Continues.runFor_of_le (h : Continues n s t) {fuel : Nat} (hle : fuel ≤ n) :
    ∃ u, runFor fuel s = .executing u := by
  induction h generalizing fuel with
  | here =>
    obtain rfl := Nat.le_zero.mp hle
    exact ⟨_, runFor_zero⟩
  | more hstep hc _ ih =>
    cases fuel with
    | zero => exact ⟨_, runFor_zero⟩
    | succ fuel =>
      rw [runFor_of_continued fuel hstep hc]
      exact ih (Nat.le_of_succ_le_succ hle)

theorem runEngine_of_executing {fuel : Nat} (h : runFor fuel s = .executing t) : runEngine fuel s = none := by
  simp only [runEngine, h]

/-- Settles O49: the `n` steps that continue use `n` of the fuel, and the next step returns where one more is left. -/
theorem runReturnsAfterItsSteps : Obligations.RunReturnsAfterItsSteps := by
  unfold Obligations.RunReturnsAfterItsSteps
  intro n s t u o hcontinues hstep ho
  have returned (k : Nat) : runFor (n + (k + 1)) s = .returned o u :=
    (hcontinues.runFor_add (k + 1)).trans (runFor_of_returned k hstep ho)
  refine ⟨⟨n + 1, returned 0⟩, fun fuel => ⟨fun hle => ?executing, fun hlt => ?returned⟩⟩
  case executing =>
    obtain ⟨v, hv⟩ := hcontinues.runFor_of_le hle
    exact runEngine_of_executing hv
  case returned =>
    obtain ⟨k, rfl⟩ := Nat.exists_eq_add_of_lt hlt
    exact runEngine_of_returned (returned k)

/-! ## Before the first RESET -/

/-- Settles O43: of the five transactions only `RESET` is not refused by an engine without a machine. -/
theorem powerUpRefusesAllButReset : Obligations.PowerUpRefusesAllButReset := by
  unfold Obligations.PowerUpRefusesAllButReset
  intro fuel tr cfg hreset
  cases tr with
  | reset image => exact absurd rfl (hreset image)
  | pushInput | run | peek | readStatus => rfl

/-! ## Words written out -/

/-- Settles O6: each of the ten words is the encoding of its instruction, which the decoder inverts; the four refusals
are evaluated. -/
theorem writtenOutWordsDecode : Obligations.WrittenOutWordsDecode := by
  unfold Obligations.WrittenOutWordsDecode
  have decodes {w : Word} {i : Instr} (h : w = encode i) : decodeWord w = .ok i := decodeWord_eq_ok_iff.mpr h
  have refusals : decodeWord 0#64 = .error .unknownOpcode ∧ decodeWord 301#64 = .error .illegalMode ∧
      decodeWord 1199#64 = .error .surplusDigit ∧ decodeWord (-1#64) = .error .negativeWord := by decide
  exact ⟨decodes rfl, decodes rfl, decodes rfl, decodes rfl, decodes rfl, decodes rfl, decodes rfl, decodes rfl,
    decodes rfl, decodes rfl, refusals⟩

end Sys2Proof.Machine
end
